-- ==== Sys2Proof/Word.lean ====
section
/-! DEFINITION. The two widths of the hardware: a 32-bit value (a register, a stack entry, an ALU operand, an
immediate, the instruction pointer) and a program byte. 00_scope.md R5, R6. -/

namespace Sys2Proof

/-- A 32-bit pattern (R6). `u(v)` is `v.toNat` and `s(v)` is `v.toInt`. -/
abbrev Word := BitVec 32

/-- One byte of the program (20_memory.md R50). -/
abbrev Byte := BitVec 8

end Sys2Proof
end

