-- ==== Sys2Proof/Config.lean ====
section
/-! DEFINITION. The parameters of the block (00_scope.md R5): the fixed ones as named constants, the open one as a
configuration record that the state carries and nothing changes. -/

namespace Sys2Proof

/-- `STACK_CAP`, the capacity of the operand stack in entries (R5, R24; the literal is unaudited, D24, log 19). -/
abbrev stackCap : Nat := 2048

/-- `NREG`, the number of registers (R5, R20). -/
abbrev numRegs : Nat := 8

/-- The largest `PROG_LEN` the block accepts (R5, R50; D2, log 4). -/
abbrev maxProgLen : Nat := 2147483647

/-- The length of the longest instruction, format FRI (30_encoding.md R71, R75). -/
abbrev maxInstrLen : Nat := 6

/-- `NEG_IP_POLICY` (R5): what a fetch at a negative instruction pointer does (40_machine_cycle.md R101). -/
inductive NegIpPolicy where
  /-- The step raises MalformedProgram and changes nothing else (the spec's default, D3). -/
  | fault
  /-- The step is an implicit halt. -/
  | halt
  deriving DecidableEq, Repr

/-- What stays open for the block: R5's model arguments other than the program, which the state holds. -/
structure Config where
  negIpPolicy : NegIpPolicy
  deriving DecidableEq, Repr

/-- The spec's default (R5; D3, log 3). -/
def Config.default : Config where
  negIpPolicy := .fault

end Sys2Proof
end

