-- ==== Sys2Proof/Machine/State.lean ====
section
/-! DEFINITION. The architectural state (10_state.md), as plain data, its reset value (R40), and the reasons for which
the model, as opposed to the block, stops. -/

namespace Sys2Proof.Machine

/-- The run state (R33). -/
inductive RunState where
  /-- Reset done, nothing executed yet. -/
  | idle
  /-- `Execute()` in progress: steps are taken. -/
  | running
  /-- The run ended normally, by HALT or by implicit halt. -/
  | halted
  /-- The run ended by a fault, which `fault` names. -/
  | faulted
  deriving DecidableEq, Repr

/-- The six faults of the block (60_exceptions.md R200), in the order of their codes 1 to 6. -/
inductive FaultKind where
  /-- A push at stack capacity (R201). -/
  | overflow
  /-- A pop or peek of an empty stack (R202). -/
  | underflow
  /-- A register identifier of 8 or more (R203). -/
  | invalidRegister
  /-- A divisor of 0 in DIV (R204). -/
  | divisionByZero
  /-- An opcode byte of 20 to 255 (R205). -/
  | unknownInstruction
  /-- An operand past the end of the program, or a negative `ip` under the policy `fault` (R206). -/
  | malformedProgram
  deriving DecidableEq, Repr

/-- The program memory (20_memory.md R50): `PROG_LEN` bytes at offsets 0 to `len - 1`. `cells` lists the non-zero ones
in rising order; an offset below `len` that is not listed holds the byte 0, and an offset at or past `len` does not
exist (log 1). -/
structure Memory where
  cells : List Host.Cell
  len : Nat
  deriving DecidableEq, Repr

/-- The state of the block (10_state.md, its first table, R20 to R34), with the two parameters the step reads. -/
structure State where
  /-- The register file `x[0..7]` (R20). -/
  x : Vector Word numRegs
  /-- The backing storage `S[0..2047]` of the operand stack (R24): the non-zero slots in rising order; a slot that is
  not listed holds 0 (log 21). -/
  S : List (Nat × Word)
  /-- The stack pointer, the number of entries on the stack, in [0, 2048] (R24, R25). -/
  sp : Fin (stackCap + 1)
  /-- The instruction pointer, a byte offset into the program (R30). -/
  ip : Word
  /-- The run state (R33). -/
  run : RunState
  /-- The fault code (R34); `none` is the spec's NONE. -/
  fault : Option FaultKind
  /-- The program bytes and `PROG_LEN`, latched by reset (R40, R50). -/
  prog : Memory
  /-- The open parameter `NEG_IP_POLICY` (00_scope.md R5). -/
  cfg : Config
  deriving DecidableEq, Repr

/-- Why the MODEL stops. The block's own faults are not among these: they are next states (R207). -/
inductive Fault where
  /-- A read of program memory outside `0 .. PROG_LEN - 1`, which 20_memory.md R52 leaves without a meaning. Raised by
  the step's fetch only; safe, and never reached, since R101's check comes first ("no call is made outside it"). -/
  | readOutsideProgram
  deriving DecidableEq, Repr

/-- What the model gives no meaning to. -/
inductive Refusal where
  /-- An instruction without a meaning yet: raised by an arm of `exec` and by nothing else; safe. No arm raises it. -/
  | notModelled (mnemonic : String)
  /-- A program of more than 2^31 - 1 bytes: raised by the reset transaction; safe (92_eei_decisions.md D2, "refused at
  reset by the model"; log 4). -/
  | programTooLong
  deriving DecidableEq, Repr

/-- What a transaction and an instruction answer. -/
abbrev Out := Host.Outcome State Fault Refusal

/-- The state after `reset` with the empty program (R40, R230; log 2). -/
def State.reset : State where
  x := Vector.replicate numRegs 0
  S := []
  sp := 0
  ip := 0
  run := .idle
  fault := none
  prog := { cells := [], len := 0 }
  cfg := Config.default

/-! The field updates every operation is made of. -/

/-- The state with another register file. -/
def State.withX (s : State) (x : Vector Word numRegs) : State := { s with x := x }

/-- The state with another stack: its storage and its pointer. -/
def State.withStack (s : State) (S : List (Nat × Word)) (sp : Fin (stackCap + 1)) : State := { s with S := S, sp := sp }

/-- The state with another instruction pointer. -/
def State.withIp (s : State) (ip : Word) : State := { s with ip := ip }

/-- The state with another run state and fault code. -/
def State.withRun (s : State) (run : RunState) (fault : Option FaultKind) : State := { s with run := run, fault := fault }

/-- The state with another program. -/
def State.withProg (s : State) (prog : Memory) : State := { s with prog := prog }

end Sys2Proof.Machine
end

