-- ==== Sys2Proof/Machine/Cells.lean ====
section
/-! DEFINITION. Sparse storage, once for the program bytes and once for the stack's slots: a list of (index, value)
pairs in rising order of index that lists no zero value. An index that is not listed holds 0 (log 1, log 21). -/

namespace Sys2Proof.Machine

/-- The value at an index. -/
def cellRead {w : Nat} : List (Nat × BitVec w) → Nat → BitVec w
  | [], _ => 0#w
  | (k, v) :: rest, a => if k = a then v else cellRead rest a

/-- The storage without an index. -/
def cellErase {w : Nat} : List (Nat × BitVec w) → Nat → List (Nat × BitVec w)
  | [], _ => []
  | (k, v) :: rest, a => if k = a then cellErase rest a else (k, v) :: cellErase rest a

/-- A pair put in front of the first larger index. -/
def cellInsert {w : Nat} : List (Nat × BitVec w) → Nat → BitVec w → List (Nat × BitVec w)
  | [], a, v => [(a, v)]
  | (k, u) :: rest, a, v => if a < k then (a, v) :: (k, u) :: rest else (k, u) :: cellInsert rest a v

/-- The storage with a value at an index; a zero value removes the entry, so that equal storages are equal lists. -/
def cellWrite {w : Nat} (m : List (Nat × BitVec w)) (a : Nat) (v : BitVec w) : List (Nat × BitVec w) :=
  if v = 0#w then cellErase m a else cellInsert (cellErase m a) a v

/-- Every index listed is at or above `lo`, in strictly rising order, and no value listed is zero. -/
def cellsRise {w : Nat} : Nat → List (Nat × BitVec w) → Bool
  | _, [] => true
  | lo, (k, v) :: rest => decide (lo ≤ k) && decide (v ≠ 0#w) && cellsRise (k + 1) rest

/-- Every index listed is below `n`. -/
def cellsBelow {w : Nat} (n : Nat) : List (Nat × BitVec w) → Bool
  | [] => true
  | (k, _) :: rest => decide (k < n) && cellsBelow n rest

/-- The canonical form of a storage of `n` places. -/
def cellsWf {w : Nat} (n : Nat) (m : List (Nat × BitVec w)) : Bool := cellsRise 0 m && cellsBelow n m

/-- The storage that holds the values of a list from index `a` on. -/
def cellsOfList {w : Nat} : Nat → List (BitVec w) → List (Nat × BitVec w)
  | _, [] => []
  | a, v :: vs => if v = 0#w then cellsOfList (a + 1) vs else (a, v) :: cellsOfList (a + 1) vs

/-- The storage with the values of a list written from index `a` on. -/
def cellsWriteList {w : Nat} : List (Nat × BitVec w) → Nat → List (BitVec w) → List (Nat × BitVec w)
  | m, _, [] => m
  | m, a, v :: vs => cellsWriteList (cellWrite m a v) (a + 1) vs

end Sys2Proof.Machine
end

