-- ==== Sys2Proof/Syntax.lean ====
section
/-! DEFINITION. The instructions, one constructor per row of the opcode map (30_encoding.md R76), in its order. -/

namespace Sys2Proof

/-- A register operand: one raw byte, of which every value decodes (30_encoding.md R72). Whether it names a register
is checked when the instruction executes (10_state.md R22, R23). -/
abbrev RegId := BitVec 8

/-- The 20 instructions (R76), operands in the byte order of their format (R71). -/
inductive Instr where
  /-- Opcode 0x00, format F0, R105. -/
  | halt
  /-- Opcode 0x01, format FI, R120. -/
  | push (imm : Word)
  /-- Opcode 0x02, format FR, R121. -/
  | pushreg (r : RegId)
  /-- Opcode 0x03, format FRR, R122: destination first. -/
  | mov (rd rs : RegId)
  /-- Opcode 0x04, format FRI, R123. -/
  | lea (r : RegId) (imm : Word)
  /-- Opcode 0x05, format F0, R124. -/
  | pop
  /-- Opcode 0x06, format FR, R125. -/
  | popreg (r : RegId)
  /-- Opcode 0x07, format F0, R141. -/
  | add
  /-- Opcode 0x08, format F0, R142. -/
  | sub
  /-- Opcode 0x09, format F0, R143. -/
  | mul
  /-- Opcode 0x0A, format F0, R144. -/
  | div
  /-- Opcode 0x0B, format F0, R145. -/
  | and
  /-- Opcode 0x0C, format F0, R146. -/
  | or
  /-- Opcode 0x0D, format F0, R147. -/
  | not
  /-- Opcode 0x0E, format F0, R149. -/
  | shl
  /-- Opcode 0x0F, format F0, R150. -/
  | shr
  /-- Opcode 0x10, format FI, R170. -/
  | jmp (imm : Word)
  /-- Opcode 0x11, format FI, R171. -/
  | jz (imm : Word)
  /-- Opcode 0x12, format FI, R172. -/
  | jnz (imm : Word)
  /-- Opcode 0x13, format F0, R180. -/
  | cmp
  deriving DecidableEq, Repr

end Sys2Proof
end

