-- ==== Sys2Proof/Machine/Ops.lean ====
section
/-! DEFINITION. The named operations over program memory, registers, stack and run state, taking a fault among them,
and the way an instruction's statements are put in sequence (00_scope.md R8). -/

namespace Sys2Proof.Machine

/-! Program memory (20_memory.md). -/

/-- The canonical form of a program memory: strictly rising offsets, all below the length, no zero byte listed, and a
length the block accepts (R50). -/
def Memory.wf (m : Memory) : Bool := cellsWf m.len m.cells && decide (m.len ≤ maxProgLen)

/-- `MemRead(addr, 1)` (R52): defined only below `PROG_LEN`. -/
def Memory.readByte (m : Memory) (a : Nat) : Option Byte :=
  if a < m.len then some (cellRead m.cells a) else none

/-- `MemRead(addr, 4)` (R52): defined only when all four bytes lie below `PROG_LEN`; little-endian. -/
def Memory.readWord (m : Memory) (a : Nat) : Option Word :=
  if a + 4 ≤ m.len then
    some (cellRead m.cells (a + 3) ++ cellRead m.cells (a + 2) ++ cellRead m.cells (a + 1) ++ cellRead m.cells a)
  else none

/-- The bytes from an offset on, at most `n` of them and none at or past `PROG_LEN`. -/
def Memory.window (m : Memory) (a : Nat) : Nat → List Byte
  | 0 => []
  | n + 1 => if a < m.len then cellRead m.cells a :: Memory.window m (a + 1) n else []

/-- The program memory that reset latches from a byte sequence (R50; 70_reset_and_hazards.md R230). -/
def Memory.ofBytes (bytes : List Byte) : Memory where
  cells := cellsOfList 0 bytes
  len := bytes.length

/-- The program memory with bytes placed from an offset on, lengthened to hold them. No operation of the block does
this (R51): it stands for a program loaded by the host (log 2). -/
def Memory.place (m : Memory) (a : Nat) (bytes : List Byte) : Memory where
  cells := cellsWriteList m.cells a bytes
  len := max m.len (a + bytes.length)

/-! Ending a run. -/

/-- Fault entry, `raise F` (60_exceptions.md R207): exactly the run state and the fault code change. There is no
handler and no return from a fault (R211). -/
def takeFault (f : FaultKind) (s : State) : State := s.withRun .faulted (some f)

/-- `halt` (40_machine_cycle.md R105, R101): the run state changes and nothing else. -/
def haltRun (s : State) : State := s.withRun .halted s.fault

/-! Statements in sequence. -/

/-- What an operation answers: a value and the state after it, or the fault it raised and the state with the effects
made before that. -/
inductive Res (α : Type) where
  | ok (a : α) (s : State)
  | raised (f : FaultKind) (s : State)
  deriving DecidableEq, Repr

/-- The next statement, unless one before it raised: "a `raise` stops the statements after it, and the effects of the
statements before it stay" (R8). -/
def Res.andThen {α β : Type} (r : Res α) (k : α → State → Res β) : Res β :=
  match r with
  | .ok a s => k a s
  | .raised f s => .raised f s

/-- The end of an instruction: the state its statements left, with the fault entered if one was raised (R207). -/
def Res.finish (r : Res Unit) : Out :=
  match r with
  | .ok _ s => .next s
  | .raised f s => .next (takeFault f s)

/-! The register file (10_state.md). -/

/-- `RegRead(id)` (R22). -/
def regRead (r : RegId) (s : State) : Res Word :=
  if h : r.toNat < numRegs then .ok s.x[r.toNat] s else .raised .invalidRegister s

/-- `RegWrite(id, v)` (R23). -/
def regWrite (r : RegId) (v : Word) (s : State) : Res Unit :=
  if h : r.toNat < numRegs then .ok () (s.withX (s.x.set r.toNat v)) else .raised .invalidRegister s

/-! The operand stack (10_state.md). -/

/-- `sp + 1`, for a stack that is not full. -/
def spUp (sp : Fin (stackCap + 1)) (h : sp.val ≠ stackCap) : Fin (stackCap + 1) :=
  ⟨sp.val + 1, Nat.succ_lt_succ (Nat.lt_of_le_of_ne (Nat.le_of_lt_succ sp.isLt) h)⟩

/-- `sp - 1`, and 0 for an empty stack. -/
def spDown (sp : Fin (stackCap + 1)) : Fin (stackCap + 1) :=
  ⟨sp.val - 1, Nat.lt_of_le_of_lt (Nat.sub_le sp.val 1) sp.isLt⟩

/-- `Push(v)` (R26). -/
def push (v : Word) (s : State) : Res Unit :=
  if h : s.sp.val = stackCap then .raised .overflow s
  else .ok () (s.withStack (cellWrite s.S s.sp.val v) (spUp s.sp h))

/-- `Pop()` (R27), which clears the slot it vacates (the spec's decision D12, log 11). -/
def pop (s : State) : Res Word :=
  if s.sp.val = 0 then .raised .underflow s
  else .ok (cellRead s.S (s.sp.val - 1)) (s.withStack (cellWrite s.S (s.sp.val - 1) 0) (spDown s.sp))

/-- `Top()` (R28): the top entry, which stays. -/
def top (s : State) : Res Word :=
  if s.sp.val = 0 then .raised .underflow s else .ok (cellRead s.S (s.sp.val - 1)) s

/-- `ip <- target` (R8). -/
def jumpTo (target : Word) (s : State) : Res Unit := .ok () (s.withIp target)

end Sys2Proof.Machine
end

