-- ==== Sys2Proof/Machine/Operands.lean ====
section
/-! DEFINITION. The operand forms an instruction takes from the stack (42_alu.md R140, R147, R148) and the value
operations of 00_scope.md R7. The register and immediate operands are read by `readReg` and `readImm` of
Sys2Proof/Decode.lean (30_encoding.md R79) and used through `regRead` and `regWrite`. -/

namespace Sys2Proof.Machine

/-- `bits32(n)` (R7): the 32-bit pattern that is `n` modulo 2^32. -/
def bits32 (n : Int) : Word := BitVec.ofInt 32 n

/-- The shift amount (R148): the low 5 bits of the top entry (the spec's decision D6, log 7). -/
def shiftAmount (A : Word) : Nat := (A.extractLsb' 0 5).toNat

/-- `A <- Pop()` and `B <- Pop()` (R9, R140), answered as `(A, B)`: `A` was the top. When the second pop raises, the
first stays done (the spec's decision D11, log 10). -/
def popTwo (s : State) : Res (Word × Word) :=
  (pop s).andThen fun A s => (pop s).andThen fun B s => .ok (A, B) s

/-- `BINOP f` (R140): pop A, pop B, push `f(B, A)`. -/
def binop (f : Word → Word → Word) (s : State) : Res Unit :=
  (popTwo s).andThen fun p s => push (f p.2 p.1) s

/-- The one-operand form (R147): pop A, push `f(A)`. -/
def unop (f : Word → Word) (s : State) : Res Unit :=
  (pop s).andThen fun A s => push (f A) s

end Sys2Proof.Machine
end

