-- ==== Sys2Proof/Machine/Alu.lean ====
section
/-! DEFINITION. ADD, SUB, MUL, DIV, AND, OR, NOT, SHL, SHR (42_alu.md). `B` is the entry below the top, `A` the top. -/

namespace Sys2Proof.Machine

/-- The exact sum modulo 2^32 (R141; D4, log 5). -/
def aluAdd (B A : Word) : Word := bits32 (B.toInt + A.toInt)

/-- The exact difference modulo 2^32 (R142; D4, log 5). -/
def aluSub (B A : Word) : Word := bits32 (B.toInt - A.toInt)

/-- The low 32 bits of the exact product (R143; D4, log 5). -/
def aluMul (B A : Word) : Word := bits32 (B.toInt * A.toInt)

/-- The signed quotient truncated toward zero (R144); -2^31 / -1 wraps (D5, log 6). -/
def aluDiv (B A : Word) : Word := bits32 (Int.tdiv B.toInt A.toInt)

/-- Bitwise AND (R145). -/
def aluAnd (B A : Word) : Word := B &&& A

/-- Bitwise OR (R146). -/
def aluOr (B A : Word) : Word := B ||| A

/-- Bitwise complement (R147). -/
def aluNot (A : Word) : Word := ~~~A

/-- Logical left shift of the pattern (R149; D7, log 7). -/
def aluShl (B A : Word) : Word := B <<< shiftAmount A

/-- Arithmetic right shift: the floor of the signed value over a power of two (R150). -/
def aluShr (B A : Word) : Word := bits32 (Int.fdiv B.toInt (2 ^ shiftAmount A))

/-- ADD (R141). -/
def execAdd (s : State) : Out := (binop aluAdd s).finish

/-- SUB (R142). -/
def execSub (s : State) : Out := (binop aluSub s).finish

/-- MUL (R143). -/
def execMul (s : State) : Out := (binop aluMul s).finish

/-- DIV (R144): the zero test comes after both pops, which stay done. -/
def execDiv (s : State) : Out :=
  ((popTwo s).andThen fun p s =>
    if p.1 = 0#32 then .raised .divisionByZero s else push (aluDiv p.2 p.1) s).finish

/-- AND (R145). -/
def execAnd (s : State) : Out := (binop aluAnd s).finish

/-- OR (R146). -/
def execOr (s : State) : Out := (binop aluOr s).finish

/-- NOT (R147). -/
def execNot (s : State) : Out := (unop aluNot s).finish

/-- SHL (R149). -/
def execShl (s : State) : Out := (binop aluShl s).finish

/-- SHR (R150). -/
def execShr (s : State) : Out := (binop aluShr s).finish

end Sys2Proof.Machine
end

