-- ==== Sys2Proof/Machine/Flags.lean ====
section
/-! DEFINITION. The block has no flags and no condition codes, and no instruction writes one (10_state.md R35). What
stands in their place is here: the value CMP pushes and the tests the conditional jumps make on the top entry. -/

namespace Sys2Proof.Machine

/-- CMP's result (44_compare.md R180): 1 if all 32 bits are equal, else 0. -/
def equalResult (B A : Word) : Word := if B = A then 1#32 else 0#32

/-- JZ's test, of all 32 bits (43_control_flow.md R171). -/
def isZero (v : Word) : Bool := decide (v = 0#32)

/-- JNZ's test (R172). -/
def isNonZero (v : Word) : Bool := decide (v ≠ 0#32)

/-- The conditional jumps' choice of the next `ip` (R173): the target if taken, else `ip` stays past the instruction. -/
def jumpIf (taken : Bool) (target : Word) (s : State) : Res Unit :=
  match taken with
  | true => jumpTo target s
  | false => .ok () s

end Sys2Proof.Machine
end

