-- ==== Sys2Proof/Machine/Compare.lean ====
section
/-! DEFINITION. CMP (44_compare.md). -/

namespace Sys2Proof.Machine

/-- CMP (R180): both operands are consumed and the result goes on the stack. -/
def execCmp (s : State) : Out := (binop equalResult s).finish

end Sys2Proof.Machine
end

