-- ==== Sys2Proof/Machine/ControlFlow.lean ====
section
/-! DEFINITION. JMP, JZ, JNZ (43_control_flow.md). Targets are absolute and unchecked: the next step checks them (R174). -/

namespace Sys2Proof.Machine

/-- JMP (R170): the stack must not be empty, though the value is not used. -/
def execJmp (imm : Word) (s : State) : Out :=
  ((top s).andThen fun _ s => jumpTo imm s).finish

/-- JZ (R171): peeks, does not pop. -/
def execJz (imm : Word) (s : State) : Out :=
  ((top s).andThen fun v s => jumpIf (isZero v) imm s).finish

/-- JNZ (R172): peeks, does not pop. -/
def execJnz (imm : Word) (s : State) : Out :=
  ((top s).andThen fun v s => jumpIf (isNonZero v) imm s).finish

end Sys2Proof.Machine
end

