-- ==== Sys2Proof/Machine/DataMovement.lean ====
section
/-! DEFINITION. PUSH, PUSHREG, MOV, LEA, POP, POPREG (41_data_movement.md). Each meaning runs after fetch and decode:
`ip` is already past the instruction. -/

namespace Sys2Proof.Machine

/-- PUSH (R120). -/
def execPush (imm : Word) (s : State) : Out := (push imm s).finish

/-- PUSHREG (R121): the register is read first (the spec's decision D15, log 14). -/
def execPushreg (r : RegId) (s : State) : Out :=
  ((regRead r s).andThen fun v s => push v s).finish

/-- MOV (R122): the source is read before the destination is written. -/
def execMov (rd rs : RegId) (s : State) : Out :=
  ((regRead rs s).andThen fun v s => regWrite rd v s).finish

/-- LEA (R123): the immediate itself is written; no memory is reached. -/
def execLea (r : RegId) (imm : Word) (s : State) : Out := (regWrite r imm s).finish

/-- POP (R124): the value is discarded. -/
def execPop (s : State) : Out := ((pop s).andThen fun _ s => .ok () s).finish

/-- POPREG (R125): the pop comes first and stays done when the register is bad (the spec's decision D14, log 13). -/
def execPopreg (r : RegId) (s : State) : Out :=
  ((pop s).andThen fun v s => regWrite r v s).finish

end Sys2Proof.Machine
end

