-- ==== Sys2Proof/Machine/System.lean ====
section
/-! DEFINITION. HALT, the only system-like instruction (40_machine_cycle.md R105; 60_exceptions.md R214). -/

namespace Sys2Proof.Machine

/-- HALT (R105): the run ends normally; nothing but the run state changes. -/
def execHalt (s : State) : Out := .next (haltRun s)

end Sys2Proof.Machine
end

