-- ==== Sys2Proof/Machine/Dispatch.lean ====
section
/-! DEFINITION. One arm per instruction: the execute phase of a step (40_machine_cycle.md R104), with `ip` already past
the instruction (R103). -/

namespace Sys2Proof.Machine

def exec (i : Instr) (s : State) : Host.Outcome State Fault Refusal :=
  match i with
  | .halt => Sys2Proof.Machine.execHalt s
  | .push imm => Sys2Proof.Machine.execPush imm s
  | .pushreg r => Sys2Proof.Machine.execPushreg r s
  | .mov rd rs => Sys2Proof.Machine.execMov rd rs s
  | .lea r imm => Sys2Proof.Machine.execLea r imm s
  | .pop => Sys2Proof.Machine.execPop s
  | .popreg r => Sys2Proof.Machine.execPopreg r s
  | .add => Sys2Proof.Machine.execAdd s
  | .sub => Sys2Proof.Machine.execSub s
  | .mul => Sys2Proof.Machine.execMul s
  | .div => Sys2Proof.Machine.execDiv s
  | .and => Sys2Proof.Machine.execAnd s
  | .or => Sys2Proof.Machine.execOr s
  | .not => Sys2Proof.Machine.execNot s
  | .shl => Sys2Proof.Machine.execShl s
  | .shr => Sys2Proof.Machine.execShr s
  | .jmp imm => Sys2Proof.Machine.execJmp imm s
  | .jz imm => Sys2Proof.Machine.execJz imm s
  | .jnz imm => Sys2Proof.Machine.execJnz imm s
  | .cmp => Sys2Proof.Machine.execCmp s

end Sys2Proof.Machine
end

