-- ==== Sys2Proof/Decode.lean ====
section
/-! DEFINITION. Decoding and encoding (30_encoding.md R70 to R81). The decoder is total on any bytes and rejects by
name; the encoder is written from the same tables. -/

namespace Sys2Proof

/-- Why the decoder rejects bytes (R80). -/
inductive DecodeError where
  /-- The opcode byte is 20 to 255 (R77, R78). -/
  | unknownInstruction
  /-- An operand would run past the end of the bytes (R79). -/
  | malformedProgram
  deriving DecidableEq, Repr

/-- What the bytes at an offset decode to: exactly one of these (R80). -/
inductive Decoded where
  | instr (i : Instr)
  /-- Rejected after `consumed` operand bytes were read: `ip` has moved past the opcode and those (R78, R79). -/
  | reject (e : DecodeError) (consumed : Nat)
  deriving DecidableEq, Repr

/-- A row of the opcode map: its format (R71) and the instruction its operands make. -/
inductive OpcodeRow where
  | f0 (i : Instr)
  | fr (mk : RegId → Instr)
  | frr (mk : RegId → RegId → Instr)
  | fi (mk : Word → Instr)
  | fri (mk : RegId → Word → Instr)

/-- The opcode map, the rows of R76 in order; every other byte is illegal (R77). -/
def opcodeRow (op : Byte) : Option OpcodeRow :=
  match op.toNat with
  | 0 => some (.f0 .halt)
  | 1 => some (.fi .push)
  | 2 => some (.fr .pushreg)
  | 3 => some (.frr .mov)
  | 4 => some (.fri .lea)
  | 5 => some (.f0 .pop)
  | 6 => some (.fr .popreg)
  | 7 => some (.f0 .add)
  | 8 => some (.f0 .sub)
  | 9 => some (.f0 .mul)
  | 10 => some (.f0 .div)
  | 11 => some (.f0 .and)
  | 12 => some (.f0 .or)
  | 13 => some (.f0 .not)
  | 14 => some (.f0 .shl)
  | 15 => some (.f0 .shr)
  | 16 => some (.fi .jmp)
  | 17 => some (.fi .jz)
  | 18 => some (.fi .jnz)
  | 19 => some (.f0 .cmp)
  | _ => none

/-- Four bytes in offset order as a 32-bit value: the lowest offset is bits 7:0 (20_memory.md R52, R55). -/
def wordOfBytes (b0 b1 b2 b3 : Byte) : Word := b3 ++ b2 ++ b1 ++ b0

/-- `ReadReg` (R79): one register byte and the bytes after it, or nothing when no byte is left. -/
def readReg : List Byte → Option (RegId × List Byte)
  | [] => none
  | r :: rest => some (r, rest)

/-- `ReadImm` (R79, R73): four immediate bytes, or nothing, with no byte consumed, when fewer are left. -/
def readImm : List Byte → Option (Word × List Byte)
  | b0 :: b1 :: b2 :: b3 :: rest => some (wordOfBytes b0 b1 b2 b3, rest)
  | _ => none

/-- Operand decode of one row: the operands of its format in byte order, each one check and one read (R79). -/
def decodeOperands (row : OpcodeRow) (operands : List Byte) : Decoded :=
  match row with
  | .f0 i => .instr i
  | .fr mk =>
    match readReg operands with
    | none => .reject .malformedProgram 0
    | some (r, _) => .instr (mk r)
  | .frr mk =>
    match readReg operands with
    | none => .reject .malformedProgram 0
    | some (rd, rest) =>
      match readReg rest with
      | none => .reject .malformedProgram 1
      | some (rs, _) => .instr (mk rd rs)
  | .fi mk =>
    match readImm operands with
    | none => .reject .malformedProgram 0
    | some (imm, _) => .instr (mk imm)
  | .fri mk =>
    match readReg operands with
    | none => .reject .malformedProgram 0
    | some (r, rest) =>
      match readImm rest with
      | none => .reject .malformedProgram 1
      | some (imm, _) => .instr (mk r imm)

/-- The decoder (R78 to R80): the opcode byte and the bytes after it, up to the end of the program. Bytes beyond the
instruction's own are ignored. -/
def decode (op : Byte) (operands : List Byte) : Decoded :=
  match opcodeRow op with
  | none => .reject .unknownInstruction 0
  | some row => decodeOperands row operands

/-- The opcode byte of an instruction (R76). -/
def Instr.opcode : Instr → Byte
  | .halt => 0x00
  | .push _ => 0x01
  | .pushreg _ => 0x02
  | .mov _ _ => 0x03
  | .lea _ _ => 0x04
  | .pop => 0x05
  | .popreg _ => 0x06
  | .add => 0x07
  | .sub => 0x08
  | .mul => 0x09
  | .div => 0x0A
  | .and => 0x0B
  | .or => 0x0C
  | .not => 0x0D
  | .shl => 0x0E
  | .shr => 0x0F
  | .jmp _ => 0x10
  | .jz _ => 0x11
  | .jnz _ => 0x12
  | .cmp => 0x13

/-- `len(op)` (R75): the length in bytes of the instruction's format. -/
def Instr.length : Instr → Nat
  | .halt => 1
  | .push _ => 5
  | .pushreg _ => 2
  | .mov _ _ => 3
  | .lea _ _ => 6
  | .pop => 1
  | .popreg _ => 2
  | .add => 1
  | .sub => 1
  | .mul => 1
  | .div => 1
  | .and => 1
  | .or => 1
  | .not => 1
  | .shl => 1
  | .shr => 1
  | .jmp _ => 5
  | .jz _ => 5
  | .jnz _ => 5
  | .cmp => 1

/-- The four bytes of an immediate, lowest offset first (R55, R73). -/
def bytesOfWord (v : Word) : List Byte :=
  [v.extractLsb' 0 8, v.extractLsb' 8 8, v.extractLsb' 16 8, v.extractLsb' 24 8]

/-- The operand bytes of an instruction, in the byte order of its format (R71). -/
def Instr.operandBytes : Instr → List Byte
  | .halt => []
  | .push imm => bytesOfWord imm
  | .pushreg r => [r]
  | .mov rd rs => [rd, rs]
  | .lea r imm => r :: bytesOfWord imm
  | .pop => []
  | .popreg r => [r]
  | .add => []
  | .sub => []
  | .mul => []
  | .div => []
  | .and => []
  | .or => []
  | .not => []
  | .shl => []
  | .shr => []
  | .jmp imm => bytesOfWord imm
  | .jz imm => bytesOfWord imm
  | .jnz imm => bytesOfWord imm
  | .cmp => []

/-- The encoder: the bytes of an instruction in offset order, opcode first (R70, R71). -/
def encode (i : Instr) : List Byte := i.opcode :: i.operandBytes

/-- The `n` lowest bytes of a number, least significant first. -/
def leBytes : Nat → Nat → List Byte
  | 0, _ => []
  | n + 1, w => BitVec.ofNat 8 w :: leBytes n (w / 256)

/-- The bytes a row of opcode_table.json stands for when its bits are `w`: `nbits` bits in the numbering of R71's
little-endian instruction value `I`, every bit above them 0, up to the longest instruction. -/
def tableBytes (nbits w : Nat) : List Byte := leBytes maxInstrLen (w % 2 ^ nbits)

/-- The instruction the decoder reads from the bits of an opcode-table row, if it accepts them. -/
def decodeTableWord (nbits w : Nat) : Option Instr :=
  match tableBytes nbits w with
  | [] => none
  | op :: operands =>
    match decode op operands with
    | .instr i => some i
    | .reject _ _ => none

end Sys2Proof
end

