-- ==== Sys2Proof/Machine/Fetch.lean ====
section
/-! DEFINITION. The part of a step before the instruction executes (40_machine_cycle.md R100 to R103): the run-state
gate, the end-of-program check, fetch and decode. -/

namespace Sys2Proof.Machine

/-- What fetching answers. -/
inductive Fetched where
  /-- An instruction to execute, and the state with `ip = ip_seq` (R103). -/
  | run (i : Instr) (s : State)
  /-- The step ends here, with this state: it was ignored (R107), an implicit halt (R101) or a fault of fetch or decode. -/
  | done (s : State)
  /-- The model stops (never reached; see `Fault`). -/
  | stop (f : Fault)
  deriving DecidableEq, Repr

/-- The fault that a rejected decode raises (30_encoding.md R78, R79). -/
def faultOfDecode : DecodeError → FaultKind
  | .unknownInstruction => .unknownInstruction
  | .malformedProgram => .malformedProgram

/-- `ip` moved on by a number of bytes. -/
def ipAdvance (s : State) (n : Nat) : State := s.withIp (s.ip + BitVec.ofNat 32 n)

/-- What a fetch at a negative `ip` does (R101; the spec's decision D3, log 3). -/
def negativeIp (s : State) : State :=
  match s.cfg.negIpPolicy with
  | .fault => takeFault .malformedProgram s
  | .halt => haltRun s

/-- The end-of-program check (R101): the state in which the step ends at once, if it does. -/
def endCheck (s : State) : Option State :=
  if s.ip.toInt < 0 then some (negativeIp s)
  else if (s.prog.len : Int) ≤ s.ip.toInt then some (haltRun s)
  else none

/-- Fetch and decode (R102, R103), inside the program: the decoder sees the bytes from `ip` up to the end of the
program, no more of them than the longest instruction has. -/
def fetchDecode (s : State) : Fetched :=
  match s.prog.window s.ip.toNat maxInstrLen with
  | [] => .stop .readOutsideProgram
  | op :: operands =>
    match decode op operands with
    | .instr i => .run i (ipAdvance s i.length)
    | .reject e consumed => .done (takeFault (faultOfDecode e) (ipAdvance s (1 + consumed)))

/-- The step up to the instruction's execution. A step is taken in RUNNING only and otherwise ignored (R107, R39). -/
def fetch (s : State) : Fetched :=
  match s.run with
  | .running =>
    match endCheck s with
    | some s' => .done s'
    | none => fetchDecode s
  | .idle => .done s
  | .halted => .done s
  | .faulted => .done s

/-- An offset where a program's next instruction can be placed: `ip`, or 0 where the longest instruction placed at `ip`
would not lie inside a program the block accepts. -/
def placeOffset (s : State) : Nat :=
  if s.ip.toNat + maxInstrLen ≤ maxProgLen then s.ip.toNat else 0

/-- The state with bytes placed where the next step fetches, RUNNING (log 2). -/
def placeProgram (bytes : List Byte) (s : State) : State :=
  ((s.withProg (s.prog.place (placeOffset s) bytes)).withIp (BitVec.ofNat 32 (placeOffset s))).withRun .running none

end Sys2Proof.Machine
end

