-- ==== Sys2Proof/Machine/Step.lean ====
section
/-! DEFINITION. The step transaction (40_machine_cycle.md R100): one instruction, or one implicit halt. -/

namespace Sys2Proof.Machine

/-- `Step()` (R100), ignored unless RUNNING (R107). -/
def step (s : State) : Host.Outcome State Fault Refusal :=
  match fetch s with
  | .run i s' => exec i s'
  | .done s' => .next s'
  | .stop f => .fault f

/-- The state with an opcode-table row's bits as the next instruction to fetch, in a run in progress: it stands for the
reset transaction with such a program and the start transaction after it (log 2). -/
def State.withFetchWord (s : State) (nbits w : Nat) : State := placeProgram (tableBytes nbits w) s

end Sys2Proof.Machine
end

