-- ==== Sys2Proof/Machine/Transactions.lean ====
section
/-! DEFINITION. The host's side of the block: the three transactions (10_state.md R39), `Execute()`
(40_machine_cycle.md R106), the read-only accessors (10_state.md R38) and the result of a run (R41). -/

namespace Sys2Proof.Machine

/-- `reset(PROG, PROG_LEN)` (70_reset_and_hazards.md R230): accepted in every run state; latches the program and sets
every piece of state to its reset value. A program that is too long is refused (92_eei_decisions.md D2, log 4). The
open parameter of the block stays. -/
def resetWith (bytes : List Byte) (s : State) : Out :=
  if bytes.length ≤ maxProgLen then
    .next { State.reset with prog := Memory.ofBytes bytes, cfg := s.cfg }
  else .refused .programTooLong

/-- `start` (R232): IDLE to RUNNING, and ignored in any other run state. -/
def startRun (s : State) : State :=
  match s.run with
  | .idle => s.withRun .running s.fault
  | .running => s
  | .halted => s
  | .faulted => s

/-- The host's transactions, each atomic (R39). -/
inductive Transaction where
  | reset (bytes : List Byte)
  | start
  | step
  deriving DecidableEq, Repr

/-- What a transaction does. -/
def transact (t : Transaction) (s : State) : Out :=
  match t with
  | .reset bytes => resetWith bytes s
  | .start => .next (startRun s)
  | .step => step s

/-- A sequence of transactions, stopping at the first that the model stops on. -/
def transactAll : List Transaction → State → Out
  | [], s => .next s
  | t :: ts, s =>
    match transact t s with
    | .next s' => transactAll ts s'
    | .fault f => .fault f
    | .refused r => .refused r

/-- At most `n` steps of the loop of `Execute()`: `step` while RUNNING (R106). The bound is the host's own, and a state
still RUNNING after it is a run the host has stopped stepping (60_exceptions.md R213; a run need not end, R109). -/
def stepWhileRunning : Nat → State → Out
  | 0, s => .next s
  | n + 1, s =>
    match s.run with
    | .running =>
      match step s with
      | .next s' => stepWhileRunning n s'
      | .fault f => .fault f
      | .refused r => .refused r
    | .idle => .next s
    | .halted => .next s
    | .faulted => .next s

/-- `Execute()` (R106), stepping at most `n` times. -/
def execute (n : Nat) (s : State) : Out := stepWhileRunning n (startRun s)

/-! Accessors (R38): reading them changes no state, so they are functions of it. -/

/-- `stack_storage()`: all 2048 slots, the bottom first. -/
def State.stackStorage (s : State) : List Word := (List.range stackCap).map (cellRead s.S)

/-- `reg(id)`: the register, or the error response `InvalidRegister`, which changes nothing. -/
def State.reg (s : State) (id : RegId) : Except FaultKind Word :=
  if h : id.toNat < numRegs then .ok s.x[id.toNat] else .error .invalidRegister

/-- `stack_size()`, which is `Size()` (R29). -/
def State.stackSize (s : State) : Nat := s.sp.val

/-- `IsEmpty()` (R29). -/
def State.stackIsEmpty (s : State) : Bool := decide (s.sp.val = 0)

/-- The 2-bit code of a run state (R33). -/
def runCode : RunState → BitVec 2
  | .idle => 0
  | .running => 1
  | .halted => 2
  | .faulted => 3

/-- The 3-bit fault code (R34); 7 is not used. -/
def faultCode : Option FaultKind → BitVec 3
  | none => 0
  | some .overflow => 1
  | some .underflow => 2
  | some .invalidRegister => 3
  | some .divisionByZero => 4
  | some .unknownInstruction => 5
  | some .malformedProgram => 6

/-- `ip()`, diagnostic only (R37). -/
def State.ipAccessor (s : State) : Word := s.ip

/-- `run_state()`. -/
def State.runState (s : State) : BitVec 2 := runCode s.run

/-- `fault_code()`. -/
def State.faultCodeAccessor (s : State) : BitVec 3 := faultCode s.fault

/-- The result of a run (R41): `ip` is not part of it (R37). -/
structure Result where
  run : RunState
  fault : Option FaultKind
  S : List (Nat × Word)
  sp : Fin (stackCap + 1)
  x : Vector Word numRegs
  deriving DecidableEq, Repr

/-- The result a state shows. -/
def State.result (s : State) : Result where
  run := s.run
  fault := s.fault
  S := s.S
  sp := s.sp
  x := s.x

end Sys2Proof.Machine
end

