-- ==== Sys2Proof/WellFormed.lean ====
section
/-! DEFINITION. Which instructions a valid program holds (30_encoding.md R72): those whose register operands name a
register. An immediate, a target included, is any 32-bit value (R73, R174), so it has no check. Every instruction
encodes and decodes, the ill-formed ones too: one of those raises InvalidRegister when it executes. -/

namespace Sys2Proof

/-- "Register operands are a single unsigned byte in [0,7] for valid programs" (R72). -/
def RegId.valid (r : RegId) : Bool := decide (r.toNat < numRegs)

/-- Every register operand of the instruction names a register. -/
def Instr.wellFormed : Instr → Bool
  | .halt => true
  | .push _ => true
  | .pushreg r => RegId.valid r
  | .mov rd rs => RegId.valid rd && RegId.valid rs
  | .lea r _ => RegId.valid r
  | .pop => true
  | .popreg r => RegId.valid r
  | .add => true
  | .sub => true
  | .mul => true
  | .div => true
  | .and => true
  | .or => true
  | .not => true
  | .shl => true
  | .shr => true
  | .jmp _ => true
  | .jz _ => true
  | .jnz _ => true
  | .cmp => true

end Sys2Proof
end

