-- ==== Sys2Proof/Safety.lean ====
section
/-! DEFINITION. The terms claims are stated in: the contents of the stack, what an instruction leaves unchanged, the
minimum stack depth and the fault priority of each instruction, and the invariant of the block. -/

namespace Sys2Proof.Machine

/-- The stack's contents, bottom to top (00_scope.md R9; 10_state.md R24): `S[0] .. S[sp-1]`. -/
def State.stack (s : State) : List Word := (List.range s.sp.val).map (cellRead s.S)

/-- No byte of the program differs, read one at a time, and neither does its length (20_memory.md R51). -/
structure SameProgram (s t : State) : Prop where
  len : t.prog.len = s.prog.len
  byte : ∀ a, t.prog.readByte a = s.prog.readByte a

/-- Nothing but the operand stack differs. -/
structure OnlyStackChanges (s t : State) : Prop where
  x : t.x = s.x
  ip : t.ip = s.ip
  run : t.run = s.run
  fault : t.fault = s.fault
  cfg : t.cfg = s.cfg
  prog : SameProgram s t

/-- Nothing but register `r` differs ("Writing one register changes no other register", R23). -/
structure OnlyRegisterChanges (r : RegId) (s t : State) : Prop where
  others : ∀ k : Fin numRegs, k.val ≠ r.toNat → t.x[k] = s.x[k]
  S : t.S = s.S
  sp : t.sp = s.sp
  ip : t.ip = s.ip
  run : t.run = s.run
  fault : t.fault = s.fault
  cfg : t.cfg = s.cfg
  prog : SameProgram s t

/-- Nothing but the operand stack and register `r` differs. -/
structure OnlyStackAndRegisterChange (r : RegId) (s t : State) : Prop where
  others : ∀ k : Fin numRegs, k.val ≠ r.toNat → t.x[k] = s.x[k]
  ip : t.ip = s.ip
  run : t.run = s.run
  fault : t.fault = s.fault
  cfg : t.cfg = s.cfg
  prog : SameProgram s t

/-- Nothing but the instruction pointer differs. -/
structure OnlyIpChanges (s t : State) : Prop where
  x : t.x = s.x
  S : t.S = s.S
  sp : t.sp = s.sp
  run : t.run = s.run
  fault : t.fault = s.fault
  cfg : t.cfg = s.cfg
  prog : SameProgram s t

/-- A run that ended with fault `f`: the run state and the fault code say so, and the registers, the configuration and
the program are as before. The stack is not spoken of, since some faults leave pops behind (60_exceptions.md R208), and
neither is `ip`, of which no claim may speak after a run (40_machine_cycle.md R108; log 12). -/
structure EntersFault (f : FaultKind) (s t : State) : Prop where
  run : t.run = .faulted
  fault : t.fault = some f
  x : t.x = s.x
  cfg : t.cfg = s.cfg
  prog : SameProgram s t

/-- A run that ended with fault `f`, the stack as before. -/
structure FaultsWithStackKept (f : FaultKind) (s t : State) : Prop where
  enters : EntersFault f s t
  S : t.S = s.S
  sp : t.sp = s.sp

/-- A run that ended normally: nothing but the run state (and `ip`, not spoken of) differs (R101, R105). -/
structure HaltsKeeping (s t : State) : Prop where
  run : t.run = .halted
  fault : t.fault = s.fault
  x : t.x = s.x
  S : t.S = s.S
  sp : t.sp = s.sp
  cfg : t.cfg = s.cfg
  prog : SameProgram s t

/-- The fewest entries the stack must have for the instruction not to raise Underflow (R202). -/
def minDepth : Instr → Nat
  | .halt => 0
  | .push _ => 0
  | .pushreg _ => 0
  | .mov _ _ => 0
  | .lea _ _ => 0
  | .pop => 1
  | .popreg _ => 1
  | .add => 2
  | .sub => 2
  | .mul => 2
  | .div => 2
  | .and => 2
  | .or => 2
  | .not => 1
  | .shl => 2
  | .shr => 2
  | .jmp _ => 1
  | .jz _ => 1
  | .jnz _ => 1
  | .cmp => 2

/-- The fault an instruction raises when it executes, by R210's table, or none. -/
def firstFault (i : Instr) (s : State) : Option FaultKind :=
  match i with
  | .halt => none
  | .push _ => if s.sp.val = stackCap then some .overflow else none
  | .pushreg r =>
    if RegId.valid r then (if s.sp.val = stackCap then some .overflow else none) else some .invalidRegister
  | .mov rd rs => if RegId.valid rs && RegId.valid rd then none else some .invalidRegister
  | .lea r _ => if RegId.valid r then none else some .invalidRegister
  | .popreg r =>
    if s.sp.val = 0 then some .underflow else (if RegId.valid r then none else some .invalidRegister)
  | .div =>
    if s.sp.val < 2 then some .underflow
    else (if cellRead s.S (s.sp.val - 1) = 0 then some .divisionByZero else none)
  | .pop => if s.sp.val < 1 then some .underflow else none
  | .add => if s.sp.val < 2 then some .underflow else none
  | .sub => if s.sp.val < 2 then some .underflow else none
  | .mul => if s.sp.val < 2 then some .underflow else none
  | .and => if s.sp.val < 2 then some .underflow else none
  | .or => if s.sp.val < 2 then some .underflow else none
  | .not => if s.sp.val < 1 then some .underflow else none
  | .shl => if s.sp.val < 2 then some .underflow else none
  | .shr => if s.sp.val < 2 then some .underflow else none
  | .jmp _ => if s.sp.val < 1 then some .underflow else none
  | .jz _ => if s.sp.val < 1 then some .underflow else none
  | .jnz _ => if s.sp.val < 1 then some .underflow else none
  | .cmp => if s.sp.val < 2 then some .underflow else none

/-- The control-flow multiplexer (43_control_flow.md R173): the target, if the instruction is a jump that is taken with
`v` on top of the stack. -/
def takenTarget (i : Instr) (v : Word) : Option Word :=
  match i with
  | .jmp imm => some imm
  | .jz imm => if v = 0 then some imm else none
  | .jnz imm => if v = 0 then none else some imm
  | .halt => none
  | .push _ => none
  | .pushreg _ => none
  | .mov _ _ => none
  | .lea _ _ => none
  | .pop => none
  | .popreg _ => none
  | .add => none
  | .sub => none
  | .mul => none
  | .div => none
  | .and => none
  | .or => none
  | .not => none
  | .shl => none
  | .shr => none
  | .cmp => none

/-- The invariant of the block: the program memory and the stack's storage are in canonical form, every slot at or
above the top holds 0 (10_state.md R25, with the spec's decision D12), and the fault code names a fault exactly when
the run state is FAULTED (R34). That `sp` is at most 2048 (R25) is its type. -/
structure State.Inv (s : State) : Prop where
  prog : s.prog.wf = true
  storage : cellsWf stackCap s.S = true
  tail : ∀ i, s.sp.val ≤ i → cellRead s.S i = 0
  fault : s.fault = none ↔ s.run ≠ .faulted

end Sys2Proof.Machine
end

