-- ==== Sys2Proof/Certificates/Slice0/Obligations.lean ====
section
/-! DEFINITION. The statements for the provers, by the numbered rules of the spec. A statement that rests on a decision
the spec marks as its own (92_eei_decisions.md) says so and names the log entry. None reads `ip` after a run has ended
(40_machine_cycle.md R108, log 12), and none rests on the value of a stack slot above the top but those that name log 11. -/

open Sys2Proof Sys2Proof.Machine

/-! ## Encoding -/

/-- R71, R73, R76: the bytes of every instruction, whatever follows them, decode to that instruction with every operand
as it was. -/
def Obligations.DecodeOfEncodeIsTheInstruction : Prop :=
  ∀ (i : Instr) (rest : List Byte) (op : Byte) (operands : List Byte),
    encode i ++ rest = op :: operands → decode op operands = .instr i

/-- R71, R75, R79: bytes that decode to an instruction begin with its encoding: each instruction has one encoding, and
decoding looks at no byte beyond it. -/
def Obligations.DecodedBytesAreTheEncoding : Prop :=
  ∀ (op : Byte) (operands : List Byte) (i : Instr),
    decode op operands = .instr i → ∃ rest, op :: operands = encode i ++ rest

/-- R84: the seven encodings the spec writes out. -/
def Obligations.SpecExampleEncodingsDecode : Prop :=
  decode 0x07 [] = .instr .add ∧
  decode 0x06 [0x00] = .instr (.popreg 0) ∧
  decode 0x03 [0x03, 0x01] = .instr (.mov 3 1) ∧
  decode 0x01 [0x0A, 0x00, 0x00, 0x00] = .instr (.push 10) ∧
  decode 0x01 [0xFE, 0xFF, 0xFF, 0xFF] = .instr (.push (-2)) ∧
  decode 0x12 [0x11, 0x00, 0x00, 0x00] = .instr (.jnz 17) ∧
  decode 0x04 [0x02, 0x78, 0x56, 0x34, 0x12] = .instr (.lea 2 0x12345678)

/-- R76, R75 (its literals unaudited, D24, log 19): the 20 rows of the opcode map, each with its format's operands and
its length. -/
def Obligations.OpcodeMapHasItsTwentyRows : Prop :=
  ∀ (rest : List Byte) (r rd rs b0 b1 b2 b3 : Byte),
    let imm : Word := b3 ++ b2 ++ b1 ++ b0
    (decode 0 rest = .instr .halt ∧ Instr.halt.length = 1) ∧
    (decode 1 (b0 :: b1 :: b2 :: b3 :: rest) = .instr (.push imm) ∧ (Instr.push imm).length = 5) ∧
    (decode 2 (r :: rest) = .instr (.pushreg r) ∧ (Instr.pushreg r).length = 2) ∧
    (decode 3 (rd :: rs :: rest) = .instr (.mov rd rs) ∧ (Instr.mov rd rs).length = 3) ∧
    (decode 4 (r :: b0 :: b1 :: b2 :: b3 :: rest) = .instr (.lea r imm) ∧ (Instr.lea r imm).length = 6) ∧
    (decode 5 rest = .instr .pop ∧ Instr.pop.length = 1) ∧
    (decode 6 (r :: rest) = .instr (.popreg r) ∧ (Instr.popreg r).length = 2) ∧
    (decode 7 rest = .instr .add ∧ Instr.add.length = 1) ∧
    (decode 8 rest = .instr .sub ∧ Instr.sub.length = 1) ∧
    (decode 9 rest = .instr .mul ∧ Instr.mul.length = 1) ∧
    (decode 10 rest = .instr .div ∧ Instr.div.length = 1) ∧
    (decode 11 rest = .instr .and ∧ Instr.and.length = 1) ∧
    (decode 12 rest = .instr .or ∧ Instr.or.length = 1) ∧
    (decode 13 rest = .instr .not ∧ Instr.not.length = 1) ∧
    (decode 14 rest = .instr .shl ∧ Instr.shl.length = 1) ∧
    (decode 15 rest = .instr .shr ∧ Instr.shr.length = 1) ∧
    (decode 16 (b0 :: b1 :: b2 :: b3 :: rest) = .instr (.jmp imm) ∧ (Instr.jmp imm).length = 5) ∧
    (decode 17 (b0 :: b1 :: b2 :: b3 :: rest) = .instr (.jz imm) ∧ (Instr.jz imm).length = 5) ∧
    (decode 18 (b0 :: b1 :: b2 :: b3 :: rest) = .instr (.jnz imm) ∧ (Instr.jnz imm).length = 5) ∧
    (decode 19 rest = .instr .cmp ∧ Instr.cmp.length = 1)

/-- R77: every opcode byte from 20 to 255 is rejected as an unknown instruction, no byte from 0 to 19 is, and a step that
fetches one of the former faults with UnknownInstruction. -/
def Obligations.OpcodesFrom20AreUnknownInstructions : Prop :=
  (∀ (op : Byte) (operands : List Byte), 20 ≤ op.toNat → decode op operands = .reject .unknownInstruction 0) ∧
  (∀ (op : Byte) (operands : List Byte) (n : Nat), op.toNat ≤ 19 →
    decode op operands ≠ .reject .unknownInstruction n) ∧
  (∀ (s : State) (op : Byte), s.run = .running → 0 ≤ s.ip.toInt → s.prog.readByte s.ip.toNat = some op →
    20 ≤ op.toNat → ∃ t, step s = .next t ∧ FaultsWithStackKept .unknownInstruction s t)

/-- R79, R80, R206: a step that fetches a defined opcode whose operands run past the end of the program faults with
MalformedProgram and changes neither the stack nor a register. -/
def Obligations.TruncatedOperandsRaiseMalformedProgram : Prop :=
  ∀ (s : State) (i : Instr), s.run = .running → 0 ≤ s.ip.toInt → s.prog.readByte s.ip.toNat = some i.opcode →
    s.prog.len < s.ip.toNat + i.length →
    ∃ t, step s = .next t ∧ FaultsWithStackKept .malformedProgram s t

/-! ## The step -/

/-- R100 to R104: in RUNNING, where the bytes at `ip` are the encoding of an instruction, the step is that instruction's
execution with `ip` moved past it. -/
def Obligations.StepRunsTheDecodedInstruction : Prop :=
  ∀ (s : State) (i : Instr), s.run = .running → 0 ≤ s.ip.toInt →
    (∀ k, k < i.length → s.prog.readByte (s.ip.toNat + k) = (encode i)[k]?) →
    step s = exec i (s.withIp (s.ip + BitVec.ofNat 32 i.length))

/-- R73, R52, R55: the immediate of PUSH, JMP, JZ, JNZ and LEA is the 4-byte little-endian read of the program at the
offset after the opcode, or after the register byte. -/
def Obligations.ImmediatesAreLittleEndianProgramReads : Prop :=
  ∀ (s : State) (imm : Word) (r : Byte), s.run = .running → 0 ≤ s.ip.toInt →
    (s.prog.readWord (s.ip.toNat + 1) = some imm →
      (s.prog.readByte s.ip.toNat = some 0x01 → step s = exec (.push imm) (s.withIp (s.ip + 5))) ∧
      (s.prog.readByte s.ip.toNat = some 0x10 → step s = exec (.jmp imm) (s.withIp (s.ip + 5))) ∧
      (s.prog.readByte s.ip.toNat = some 0x11 → step s = exec (.jz imm) (s.withIp (s.ip + 5))) ∧
      (s.prog.readByte s.ip.toNat = some 0x12 → step s = exec (.jnz imm) (s.withIp (s.ip + 5)))) ∧
    (s.prog.readByte (s.ip.toNat + 1) = some r → s.prog.readWord (s.ip.toNat + 2) = some imm →
      s.prog.readByte s.ip.toNat = some 0x04 → step s = exec (.lea r imm) (s.withIp (s.ip + 6)))

/-- R101: a step at or past the end of the program is an implicit halt; one at a negative `ip` does what
`NEG_IP_POLICY` says (the policy is the spec's decision D3, log 3). -/
def Obligations.StepOutsideTheProgramEndsTheRun : Prop :=
  ∀ s : State, s.run = .running →
    (0 ≤ s.ip.toInt → (s.prog.len : Int) ≤ s.ip.toInt → ∃ t, step s = .next t ∧ HaltsKeeping s t) ∧
    (s.ip.toInt < 0 → s.cfg.negIpPolicy = .fault →
      ∃ t, step s = .next t ∧ FaultsWithStackKept .malformedProgram s t) ∧
    (s.ip.toInt < 0 → s.cfg.negIpPolicy = .halt → ∃ t, step s = .next t ∧ HaltsKeeping s t)

/-- R80, R100, R102 (that a step outside RUNNING answers the state it was given is the spec's decision D10, log 9; the
stop that is never answered is the model's own, log 17): every step of every state answers a next state, since the
decoder has an answer for every byte and no read is made outside the program. -/
def Obligations.EveryStepAnswersANextState : Prop :=
  ∀ s : State, ∃ t, step s = .next t

/-- R25, R34 (that slots at or above the top hold 0 is the spec's decision D12, log 11; the canonical form of the
storage is the model's representation, logs 1 and 21): every step from a state that meets the invariant leads to one that
meets it. -/
def Obligations.StepKeepsTheInvariant : Prop :=
  ∀ s t : State, s.Inv → step s = .next t → t.Inv

/-- R25, R34, R40 (the canonical form of the storage is the model's representation, logs 1 and 21): the reset state meets
the invariant, and so does the state after any accepted reset. -/
def Obligations.ResetMeetsTheInvariant : Prop :=
  State.reset.Inv ∧ ∀ (bytes : List Byte) (s t : State), transact (.reset bytes) s = .next t → t.Inv

/-- R25, R34, R39 (that slots at or above the top hold 0 is the spec's decision D12, log 11; the canonical form of the
storage is the model's representation, logs 1 and 21): from a state that meets the invariant, whatever the host does,
with whatever programs, every state reached meets it. -/
def Obligations.EveryReachableStateMeetsTheInvariant : Prop :=
  ∀ (ts : List Transaction) (s t : State), s.Inv → transactAll ts s = .next t → t.Inv

/-- R51: no step and no start changes a byte of the program or its length, and after a reset the program is the bytes
the reset supplied. -/
def Obligations.ProgramChangesOnlyByReset : Prop :=
  (∀ s t : State, transact .step s = .next t → SameProgram s t) ∧
  (∀ s t : State, transact .start s = .next t → SameProgram s t) ∧
  (∀ (bytes : List Byte) (s t : State), transact (.reset bytes) s = .next t →
    t.prog.len = bytes.length ∧ ∀ a, t.prog.readByte a = bytes[a]?)

/-- R107 (IDLE and the ignoring of transactions are the spec's decisions D8, D10, logs 8, 9): the transitions of the run
state, and that there are no others. -/
def Obligations.RunStateMoves : Prop :=
  (∀ (bytes : List Byte) (s t : State), transact (.reset bytes) s = .next t → t.run = .idle) ∧
  (∀ s : State, s.run = .idle → ∃ t, transact .start s = .next t ∧ t.run = .running) ∧
  (∀ s : State, s.run ≠ .idle → transact .start s = .next s) ∧
  (∀ s : State, s.run ≠ .running → transact .step s = .next s) ∧
  (∀ s t : State, s.run = .running → transact .step s = .next t →
    (t.run = .running ∧ t.fault = s.fault) ∨ (t.run = .halted ∧ t.fault = s.fault) ∨
      (t.run = .faulted ∧ ∃ f, t.fault = some f)) ∧
  (∀ s t : State, s.run = .running → transact .step s = .next t → t.run = .halted →
    s.prog.readByte s.ip.toNat = some 0x00 ∨ s.ip.toInt < 0 ∨ (s.prog.len : Int) ≤ s.ip.toInt)

/-- R211 (that start and step are ignored there is the spec's decision D10, log 9, and IDLE its decision D8, log 8): a faulted run is final: start and
step leave every part of the state as it is, and only a reset leads on, to IDLE with no fault. -/
def Obligations.FaultedRunsAreFinal : Prop :=
  ∀ s : State, s.run = .faulted →
    transact .start s = .next s ∧ transact .step s = .next s ∧
    ∀ bytes : List Byte, bytes.length ≤ maxProgLen →
      ∃ t, transact (.reset bytes) s = .next t ∧ t.run = .idle ∧ t.fault = none

/-- R40, R230 (the values of `run` and `fault` are the spec's decisions D8, D9, log 8; the bound is D2, log 4; that a
reset is accepted in every run state is D25, log 16): what a reset leaves, and which program it refuses. -/
def Obligations.ResetLeavesTheResetState : Prop :=
  ∀ (bytes : List Byte) (s : State),
    (bytes.length ≤ maxProgLen → ∃ t, transact (.reset bytes) s = .next t ∧
      (∀ k : Fin numRegs, t.x[k] = 0) ∧ t.sp.val = 0 ∧ (∀ i, cellRead t.S i = 0) ∧ t.ip = 0 ∧ t.run = .idle ∧
      t.fault = none ∧ t.prog.len = bytes.length ∧ (∀ a, t.prog.readByte a = bytes[a]?) ∧ t.cfg = s.cfg) ∧
    (maxProgLen < bytes.length → transact (.reset bytes) s = .refused .programTooLong)

/-- R232 (IDLE is the spec's decision D8, log 8; that start is ignored elsewhere is D10, log 9): start moves IDLE to RUNNING and changes
nothing else. -/
def Obligations.StartChangesOnlyTheRunState : Prop :=
  ∀ s : State,
    (s.run = .idle → ∃ t, transact .start s = .next t ∧ t.run = .running ∧ t.fault = s.fault ∧ t.x = s.x ∧
      t.S = s.S ∧ t.sp = s.sp ∧ t.ip = s.ip ∧ t.cfg = s.cfg ∧ SameProgram s t) ∧
    (s.run ≠ .idle → transact .start s = .next s)

/-- R110: with the empty program, the first step after reset and start is an implicit halt that keeps the reset state. -/
def Obligations.EmptyProgramHaltsAtItsFirstStep : Prop :=
  ∀ s : State, ∃ t, transactAll [.reset [], .start, .step] s = .next t ∧ t.run = .halted ∧ t.fault = none ∧
    (∀ k : Fin numRegs, t.x[k] = 0) ∧ t.sp.val = 0 ∧ (∀ i, cellRead t.S i = 0)

/-- R109: a JMP to its own offset, with a non-empty stack, steps for ever: after any number of steps the state is the
one before them, still RUNNING. -/
def Obligations.JumpToItselfNeverEnds : Prop :=
  ∀ (s : State) (n : Nat), s.run = .running → 0 ≤ s.ip.toInt → 0 < s.sp.val →
    (∀ k, k < 5 → s.prog.readByte (s.ip.toNat + k) = (encode (.jmp s.ip))[k]?) →
    stepWhileRunning n s = .next s

/-- R32, R104: with a program of a length the block accepts, a step that leaves the run RUNNING moves `ip` forward, to
no further than the end of the program, unless the opcode fetched is a jump's. -/
def Obligations.AdvancingNeverPassesTheEnd : Prop :=
  ∀ s t : State, s.prog.len ≤ maxProgLen → s.run = .running → step s = .next t → t.run = .running →
    (s.ip.toNat < t.ip.toNat ∧ t.ip.toNat ≤ s.prog.len) ∨
      s.prog.readByte s.ip.toNat = some 0x10 ∨ s.prog.readByte s.ip.toNat = some 0x11 ∨
      s.prog.readByte s.ip.toNat = some 0x12

/-- R173, R31: an instruction that leaves the run RUNNING leaves `ip` past itself, unless it is a jump that is taken,
which writes its target; no other instruction writes `ip`. -/
def Obligations.NextIpIsTheTargetOrTheSequentialOne : Prop :=
  ∀ (i : Instr) (s t : State), s.run = .running → exec i s = .next t → t.run = .running →
    t.ip = (takenTarget i (cellRead s.S (s.sp.val - 1))).getD s.ip

/-- R106, R107 (that a step outside RUNNING is ignored is the spec's decision D10, log 9; the bound `n` is the host's own,
D18, log 16): steps after the end of a run change nothing; `Execute()` stepped at most `n` times is a start followed by
`n` step transactions, and it answers a state that is HALTED, FAULTED or still RUNNING. -/
def Obligations.ExecuteIsStartThenStepsAndEndedRunsStay : Prop :=
  (∀ (k : Nat) (s : State), s.run ≠ .running → transactAll (List.replicate k .step) s = .next s) ∧
  (∀ (n : Nat) (s : State), execute n s = transactAll (.start :: List.replicate n .step) s) ∧
  (∀ (n : Nat) (s : State), ∃ t, execute n s = .next t ∧ t.run ≠ .idle) ∧
  (∀ (n k : Nat) (s t : State), execute n s = .next t → t.run ≠ .running →
    transactAll (.start :: List.replicate (n + k) .step) s = .next t)

/-! ## State -/

/-- R52 (the model's own stop on an opcode fetch outside the program is log 17): a 1-byte read is defined exactly below
the program's length, a 4-byte read exactly where all four bytes are; the 4-byte read is little-endian. No step reads
outside: none stops on such a read, and with another program memory in which every defined read answers the same, the
step is the same, operands included. -/
def Obligations.MemReadIsBoundedAndLittleEndian : Prop :=
  (∀ (m : Memory) (a : Nat), (∃ b, m.readByte a = some b) ↔ a + 1 ≤ m.len) ∧
  (∀ (m : Memory) (a : Nat), (∃ v, m.readWord a = some v) ↔ a + 4 ≤ m.len) ∧
  (∀ (m : Memory) (a : Nat) (v : Word), m.readWord a = some v →
    ∃ b0 b1 b2 b3, m.readByte a = some b0 ∧ m.readByte (a + 1) = some b1 ∧ m.readByte (a + 2) = some b2 ∧
      m.readByte (a + 3) = some b3 ∧
      v.toNat = b0.toNat + 2 ^ 8 * b1.toNat + 2 ^ 16 * b2.toNat + 2 ^ 24 * b3.toNat) ∧
  (∀ (s : State) (f : Fault), step s ≠ .fault f) ∧
  (∀ (s t : State) (m : Memory), m.len = s.prog.len → (∀ a, m.readByte a = s.prog.readByte a) →
    step s = .next t → step (s.withProg m) = .next (t.withProg m))

/-- R22, R23: an access to the register file with an identifier of 8 or more raises InvalidRegister and changes nothing;
any other reads or writes its register, and a write changes no other. -/
def Obligations.RegisterFileAccess : Prop :=
  ∀ (r : RegId) (v : Word) (s : State),
    (8 ≤ r.toNat → regRead r s = .raised .invalidRegister s ∧ regWrite r v s = .raised .invalidRegister s) ∧
    (∀ k : Fin numRegs, r.toNat = k.val →
      regRead r s = .ok s.x[k] s ∧ ∃ t, regWrite r v s = .ok () t ∧ t.x[k] = v ∧ OnlyRegisterChanges r s t)

/-- R26: a push at capacity raises Overflow and changes nothing; any other writes the slot at `sp` and no other slot. -/
def Obligations.PushOperation : Prop :=
  ∀ (v : Word) (s : State),
    (s.sp.val = 2048 → push v s = .raised .overflow s) ∧
    (s.sp.val ≠ 2048 → ∃ t, push v s = .ok () t ∧ t.sp.val = s.sp.val + 1 ∧ cellRead t.S s.sp.val = v ∧
      (∀ i, i ≠ s.sp.val → cellRead t.S i = cellRead s.S i) ∧ OnlyStackChanges s t)

/-- R27 (the clearing of the vacated slot is the spec's decision D12, log 11): a pop of an empty stack raises Underflow
and changes nothing; any other answers the top, clears its slot and changes no other. -/
def Obligations.PopOperation : Prop :=
  ∀ s : State,
    (s.sp.val = 0 → pop s = .raised .underflow s) ∧
    (s.sp.val ≠ 0 → ∃ t, pop s = .ok (cellRead s.S (s.sp.val - 1)) t ∧ t.sp.val = s.sp.val - 1 ∧
      cellRead t.S (s.sp.val - 1) = 0 ∧ (∀ i, i ≠ s.sp.val - 1 → cellRead t.S i = cellRead s.S i) ∧
      OnlyStackChanges s t)

/-- R28: a peek of an empty stack raises Underflow; any other answers the top; neither changes the state. -/
def Obligations.TopOperation : Prop :=
  ∀ s : State,
    (s.sp.val = 0 → top s = .raised .underflow s) ∧
    (∀ (st : List Word) (A : Word), s.stack = st ++ [A] → top s = .ok A s)

/-- R21: every register is readable by PUSHREG and as the source of MOV, and writable by POPREG, as the destination of
MOV and by LEA; no other instruction writes one; and no other instruction reads one: what it does to the rest of the
state is the same whatever the registers hold (`ip` after a run has ended is not spoken of, log 12). -/
def Obligations.RegistersAreReachedByRegisterInstructionsOnly : Prop :=
  (∀ (r : RegId) (k : Fin numRegs) (s : State), r.toNat = k.val →
    (s.sp.val < 2048 → ∃ t, exec (.pushreg r) s = .next t ∧ t.stack = s.stack ++ [s.x[k]]) ∧
    (∀ (rd : RegId) (d : Fin numRegs), rd.toNat = d.val →
      ∃ t, exec (.mov rd r) s = .next t ∧ t.x[d] = s.x[k]) ∧
    (∀ v : Word, ∃ t, exec (.lea r v) s = .next t ∧ t.x[k] = v) ∧
    (∀ (st : List Word) (A : Word), s.stack = st ++ [A] → ∃ t, exec (.popreg r) s = .next t ∧ t.x[k] = A)) ∧
  (∀ (i : Instr) (s t : State), exec i s = .next t →
    (∀ r, i ≠ .popreg r) → (∀ rd rs, i ≠ .mov rd rs) → (∀ r imm, i ≠ .lea r imm) → t.x = s.x) ∧
  (∀ (i : Instr) (s t : State) (x : Vector Word numRegs), exec i s = .next t →
    (∀ r, i ≠ .pushreg r) → (∀ rd rs, i ≠ .mov rd rs) →
    ∃ t', exec i (s.withX x) = .next t' ∧ t'.S = t.S ∧ t'.sp = t.sp ∧ t'.run = t.run ∧
      t'.fault = t.fault ∧ t'.cfg = t.cfg ∧ SameProgram t t' ∧ (t.run = .running → t'.ip = t.ip) ∧
      ∀ k : Fin numRegs, (t.x[k] = s.x[k] ∧ t'.x[k] = x[k]) ∨ t'.x[k] = t.x[k])

/-- R24: instructions reach the stack from its top only: entries below an instruction's operands stay, whatever it does. -/
def Obligations.EntriesBelowTheOperandsStay : Prop :=
  ∀ (i : Instr) (s t : State) (k : Nat), exec i s = .next t → k + minDepth i < s.sp.val →
    k < t.sp.val ∧ cellRead t.S k = cellRead s.S k

/-- R38 (the accessors beyond the source's two, and the error response, are the spec's decision D17, log 16; the codes
are D8 and D9, log 8; `ip()` after a run has ended is not spoken of, log 12): what the observation interface returns. -/
def Obligations.AccessorsShowTheState : Prop :=
  ∀ s : State,
    s.stackStorage.length = 2048 ∧ (∀ i, i < 2048 → s.stackStorage[i]? = some (cellRead s.S i)) ∧
    (∀ r : RegId, 8 ≤ r.toNat → s.reg r = .error .invalidRegister) ∧
    (∀ (r : RegId) (k : Fin numRegs), r.toNat = k.val → s.reg r = .ok s.x[k]) ∧
    (s.run = .running → s.ipAccessor = s.ip) ∧
    s.stackSize = s.sp.val ∧ s.stackSize = s.stack.length ∧ (s.stackIsEmpty = true ↔ s.stack = []) ∧
    (s.run = .idle → s.runState = 0) ∧ (s.run = .running → s.runState = 1) ∧
    (s.run = .halted → s.runState = 2) ∧ (s.run = .faulted → s.runState = 3) ∧
    (s.faultCodeAccessor = 0 ↔ s.fault = none) ∧
    (s.fault = some .overflow → s.faultCodeAccessor = 1) ∧ (s.fault = some .underflow → s.faultCodeAccessor = 2) ∧
    (s.fault = some .invalidRegister → s.faultCodeAccessor = 3) ∧
    (s.fault = some .divisionByZero → s.faultCodeAccessor = 4) ∧
    (s.fault = some .unknownInstruction → s.faultCodeAccessor = 5) ∧
    (s.fault = some .malformedProgram → s.faultCodeAccessor = 6)

/-! ## The instructions, each with where it completes, its result, its frame and its faults -/

/-- R105: HALT ends the run normally, in every state, and changes nothing else (`ip` is not spoken of, log 12). -/
def Obligations.HaltEndsTheRun : Prop :=
  (∀ rest : List Byte, decode 0x00 rest = .instr .halt) ∧
  ∀ s : State, ∃ t, exec .halt s = .next t ∧ HaltsKeeping s t

/-- R120: PUSH. -/
def Obligations.PushPushesItsImmediate : Prop :=
  (∀ (b0 b1 b2 b3 : Byte) (rest : List Byte),
    decode 0x01 (b0 :: b1 :: b2 :: b3 :: rest) = .instr (.push (b3 ++ b2 ++ b1 ++ b0))) ∧
  (∀ bytes : List Byte, bytes.length < 4 → ∃ n, decode 0x01 bytes = .reject .malformedProgram n) ∧
  ∀ (imm : Word) (s : State),
    (s.sp.val < 2048 →
      ∃ t, exec (.push imm) s = .next t ∧ t.stack = s.stack ++ [imm] ∧ OnlyStackChanges s t) ∧
    (s.sp.val = 2048 → ∃ t, exec (.push imm) s = .next t ∧ FaultsWithStackKept .overflow s t)

/-- R121 (which fault is named for a bad register on a full stack is the spec's decision D15, log 14): PUSHREG. -/
def Obligations.PushregPushesTheRegister : Prop :=
  (∀ (r : Byte) (rest : List Byte), decode 0x02 (r :: rest) = .instr (.pushreg r)) ∧
  (∃ n, decode 0x02 [] = .reject .malformedProgram n) ∧
  ∀ (r : RegId) (s : State),
    (∀ k : Fin numRegs, r.toNat = k.val → s.sp.val < 2048 →
      ∃ t, exec (.pushreg r) s = .next t ∧ t.stack = s.stack ++ [s.x[k]] ∧ OnlyStackChanges s t) ∧
    (8 ≤ r.toNat → ∃ t, exec (.pushreg r) s = .next t ∧ FaultsWithStackKept .invalidRegister s t) ∧
    (r.toNat < 8 → s.sp.val = 2048 → ∃ t, exec (.pushreg r) s = .next t ∧ FaultsWithStackKept .overflow s t)

/-- R122: MOV, in every state of the stack. -/
def Obligations.MovCopiesTheSourceRegister : Prop :=
  (∀ (rd rs : Byte) (rest : List Byte), decode 0x03 (rd :: rs :: rest) = .instr (.mov rd rs)) ∧
  (∀ bytes : List Byte, bytes.length < 2 → ∃ n, decode 0x03 bytes = .reject .malformedProgram n) ∧
  ∀ (rd rs : RegId) (s : State),
    (∀ d k : Fin numRegs, rd.toNat = d.val → rs.toNat = k.val →
      ∃ t, exec (.mov rd rs) s = .next t ∧ t.x[d] = s.x[k] ∧ OnlyRegisterChanges rd s t) ∧
    (8 ≤ rd.toNat ∨ 8 ≤ rs.toNat →
      ∃ t, exec (.mov rd rs) s = .next t ∧ FaultsWithStackKept .invalidRegister s t)

/-- R123: LEA, in every state of the stack. -/
def Obligations.LeaWritesItsImmediate : Prop :=
  (∀ (r b0 b1 b2 b3 : Byte) (rest : List Byte),
    decode 0x04 (r :: b0 :: b1 :: b2 :: b3 :: rest) = .instr (.lea r (b3 ++ b2 ++ b1 ++ b0))) ∧
  (∀ bytes : List Byte, bytes.length < 5 → ∃ n, decode 0x04 bytes = .reject .malformedProgram n) ∧
  ∀ (r : RegId) (imm : Word) (s : State),
    (∀ k : Fin numRegs, r.toNat = k.val →
      ∃ t, exec (.lea r imm) s = .next t ∧ t.x[k] = imm ∧ OnlyRegisterChanges r s t) ∧
    (8 ≤ r.toNat → ∃ t, exec (.lea r imm) s = .next t ∧ FaultsWithStackKept .invalidRegister s t)

/-- R124 (that the vacated slot reads 0 is the spec's decision D12, log 11): POP. -/
def Obligations.PopDiscardsTheTop : Prop :=
  (∀ rest : List Byte, decode 0x05 rest = .instr .pop) ∧
  ∀ s : State,
    (∀ (st : List Word) (A : Word), s.stack = st ++ [A] →
      ∃ t, exec .pop s = .next t ∧ t.stack = st ∧ cellRead t.S (s.sp.val - 1) = 0 ∧ OnlyStackChanges s t) ∧
    (s.sp.val = 0 → ∃ t, exec .pop s = .next t ∧ FaultsWithStackKept .underflow s t)

/-- R125 (its order, and so the value lost to a bad register, is the spec's decision D14, log 13): POPREG. -/
def Obligations.PopregPopsIntoTheRegister : Prop :=
  (∀ (r : Byte) (rest : List Byte), decode 0x06 (r :: rest) = .instr (.popreg r)) ∧
  (∃ n, decode 0x06 [] = .reject .malformedProgram n) ∧
  ∀ (r : RegId) (s : State),
    (∀ (k : Fin numRegs) (st : List Word) (A : Word), r.toNat = k.val → s.stack = st ++ [A] →
      ∃ t, exec (.popreg r) s = .next t ∧ t.stack = st ∧ t.x[k] = A ∧ OnlyStackAndRegisterChange r s t) ∧
    (s.sp.val = 0 → ∃ t, exec (.popreg r) s = .next t ∧ FaultsWithStackKept .underflow s t) ∧
    (∀ (st : List Word) (A : Word), 8 ≤ r.toNat → s.stack = st ++ [A] →
      ∃ t, exec (.popreg r) s = .next t ∧ t.stack = st ∧ EntersFault .invalidRegister s t)

/-- R140, R141, R7 (that a sum too large wraps is the spec's decision D4, log 5): ADD. -/
def Obligations.AddPushesTheSum : Prop :=
  (∀ rest : List Byte, decode 0x07 rest = .instr .add) ∧
  ∀ s : State,
    (∀ (st : List Word) (B A : Word), s.stack = st ++ [B, A] →
      ∃ t v, exec .add s = .next t ∧ t.stack = st ++ [v] ∧ (v.toNat : Int) = (B.toInt + A.toInt) % 2 ^ 32 ∧
        OnlyStackChanges s t) ∧
    (s.sp.val < 2 → ∃ t, exec .add s = .next t ∧ EntersFault .underflow s t)

/-- R140, R142, R7 (the wrap is the spec's decision D4, log 5): SUB; the entry below the top is the minuend. -/
def Obligations.SubPushesTheDifference : Prop :=
  (∀ rest : List Byte, decode 0x08 rest = .instr .sub) ∧
  ∀ s : State,
    (∀ (st : List Word) (B A : Word), s.stack = st ++ [B, A] →
      ∃ t v, exec .sub s = .next t ∧ t.stack = st ++ [v] ∧ (v.toNat : Int) = (B.toInt - A.toInt) % 2 ^ 32 ∧
        OnlyStackChanges s t) ∧
    (s.sp.val < 2 → ∃ t, exec .sub s = .next t ∧ EntersFault .underflow s t)

/-- R140, R143, R7 (the wrap is the spec's decision D4, log 5): MUL. -/
def Obligations.MulPushesTheLowProduct : Prop :=
  (∀ rest : List Byte, decode 0x09 rest = .instr .mul) ∧
  ∀ s : State,
    (∀ (st : List Word) (B A : Word), s.stack = st ++ [B, A] →
      ∃ t v, exec .mul s = .next t ∧ t.stack = st ++ [v] ∧ (v.toNat : Int) = (B.toInt * A.toInt) % 2 ^ 32 ∧
        OnlyStackChanges s t) ∧
    (s.sp.val < 2 → ∃ t, exec .mul s = .next t ∧ EntersFault .underflow s t)

/-- R140, R144, R7 (that the quotient of -2^31 by -1 wraps is the spec's decision D5, log 6): DIV; with a divisor of 0
both operands are gone and nothing is pushed. -/
def Obligations.DivPushesTheTruncatedQuotient : Prop :=
  (∀ rest : List Byte, decode 0x0A rest = .instr .div) ∧
  ∀ s : State,
    (∀ (st : List Word) (B A : Word), s.stack = st ++ [B, A] → A ≠ 0 →
      ∃ t v, exec .div s = .next t ∧ t.stack = st ++ [v] ∧
        (v.toNat : Int) = (Int.tdiv B.toInt A.toInt) % 2 ^ 32 ∧ OnlyStackChanges s t) ∧
    (∀ (st : List Word) (B : Word), s.stack = st ++ [B, 0] →
      ∃ t, exec .div s = .next t ∧ t.stack = st ∧ EntersFault .divisionByZero s t) ∧
    (s.sp.val < 2 → ∃ t, exec .div s = .next t ∧ EntersFault .underflow s t)

/-- R145: AND, bit by bit. -/
def Obligations.AndPushesTheBitwiseAnd : Prop :=
  (∀ rest : List Byte, decode 0x0B rest = .instr .and) ∧
  ∀ s : State,
    (∀ (st : List Word) (B A : Word), s.stack = st ++ [B, A] →
      ∃ t v, exec .and s = .next t ∧ t.stack = st ++ [v] ∧ (∀ n, v.getLsbD n = (B.getLsbD n && A.getLsbD n)) ∧
        OnlyStackChanges s t) ∧
    (s.sp.val < 2 → ∃ t, exec .and s = .next t ∧ EntersFault .underflow s t)

/-- R146: OR, bit by bit. -/
def Obligations.OrPushesTheBitwiseOr : Prop :=
  (∀ rest : List Byte, decode 0x0C rest = .instr .or) ∧
  ∀ s : State,
    (∀ (st : List Word) (B A : Word), s.stack = st ++ [B, A] →
      ∃ t v, exec .or s = .next t ∧ t.stack = st ++ [v] ∧ (∀ n, v.getLsbD n = (B.getLsbD n || A.getLsbD n)) ∧
        OnlyStackChanges s t) ∧
    (s.sp.val < 2 → ∃ t, exec .or s = .next t ∧ EntersFault .underflow s t)

/-- R147: NOT, bit by bit, and in signed terms; a full stack is no obstacle. -/
def Obligations.NotPushesTheComplement : Prop :=
  (∀ rest : List Byte, decode 0x0D rest = .instr .not) ∧
  ∀ s : State,
    (∀ (st : List Word) (A : Word), s.stack = st ++ [A] →
      ∃ t v, exec .not s = .next t ∧ t.stack = st ++ [v] ∧ (∀ n, n < 32 → v.getLsbD n = !A.getLsbD n) ∧
        v.toInt = -A.toInt - 1 ∧ OnlyStackChanges s t) ∧
    (s.sp.val = 0 → ∃ t, exec .not s = .next t ∧ FaultsWithStackKept .underflow s t)

/-- R140, R148, R149 (the shift amount is the spec's decision D6 and the dropped bits D7, log 7): SHL. -/
def Obligations.ShlPushesTheLeftShift : Prop :=
  (∀ rest : List Byte, decode 0x0E rest = .instr .shl) ∧
  ∀ s : State,
    (∀ (st : List Word) (B A : Word), s.stack = st ++ [B, A] →
      ∃ t v, exec .shl s = .next t ∧ t.stack = st ++ [v] ∧ v.toNat = (B.toNat * 2 ^ (A.toNat % 32)) % 2 ^ 32 ∧
        OnlyStackChanges s t) ∧
    (s.sp.val < 2 → ∃ t, exec .shl s = .next t ∧ EntersFault .underflow s t)

/-- R140, R148, R150 (the shift amount is the spec's decision D6, log 7): SHR, rounding toward minus infinity. -/
def Obligations.ShrPushesTheArithmeticRightShift : Prop :=
  (∀ rest : List Byte, decode 0x0F rest = .instr .shr) ∧
  ∀ s : State,
    (∀ (st : List Word) (B A : Word), s.stack = st ++ [B, A] →
      ∃ t v, exec .shr s = .next t ∧ t.stack = st ++ [v] ∧
        v.toInt * 2 ^ (A.toNat % 32) ≤ B.toInt ∧ B.toInt < (v.toInt + 1) * 2 ^ (A.toNat % 32) ∧
        OnlyStackChanges s t) ∧
    (s.sp.val < 2 → ∃ t, exec .shr s = .next t ∧ EntersFault .underflow s t)

/-- R170: JMP needs a non-empty stack, whatever its value (`ip` after the fault is not spoken of, log 12). -/
def Obligations.JmpWritesItsTarget : Prop :=
  (∀ (b0 b1 b2 b3 : Byte) (rest : List Byte),
    decode 0x10 (b0 :: b1 :: b2 :: b3 :: rest) = .instr (.jmp (b3 ++ b2 ++ b1 ++ b0))) ∧
  (∀ bytes : List Byte, bytes.length < 4 → ∃ n, decode 0x10 bytes = .reject .malformedProgram n) ∧
  ∀ (imm : Word) (s : State),
    (0 < s.sp.val → ∃ t, exec (.jmp imm) s = .next t ∧ t.ip = imm ∧ OnlyIpChanges s t) ∧
    (s.sp.val = 0 → ∃ t, exec (.jmp imm) s = .next t ∧ FaultsWithStackKept .underflow s t)

/-- R171: JZ peeks; it jumps on a zero top, falls through on any other, and takes nothing from the stack. -/
def Obligations.JzJumpsOnZeroAndKeepsTheStack : Prop :=
  (∀ (b0 b1 b2 b3 : Byte) (rest : List Byte),
    decode 0x11 (b0 :: b1 :: b2 :: b3 :: rest) = .instr (.jz (b3 ++ b2 ++ b1 ++ b0))) ∧
  (∀ bytes : List Byte, bytes.length < 4 → ∃ n, decode 0x11 bytes = .reject .malformedProgram n) ∧
  ∀ (imm : Word) (s : State),
    (∀ st : List Word, s.stack = st ++ [0] →
      ∃ t, exec (.jz imm) s = .next t ∧ t.ip = imm ∧ OnlyIpChanges s t) ∧
    (∀ (st : List Word) (v : Word), s.stack = st ++ [v] → v ≠ 0 →
      ∃ t, exec (.jz imm) s = .next t ∧ t.ip = s.ip ∧ OnlyIpChanges s t) ∧
    (s.sp.val = 0 → ∃ t, exec (.jz imm) s = .next t ∧ FaultsWithStackKept .underflow s t)

/-- R172: JNZ peeks; it jumps on any non-zero top, falls through on zero, and takes nothing from the stack. -/
def Obligations.JnzJumpsOnNonZeroAndKeepsTheStack : Prop :=
  (∀ (b0 b1 b2 b3 : Byte) (rest : List Byte),
    decode 0x12 (b0 :: b1 :: b2 :: b3 :: rest) = .instr (.jnz (b3 ++ b2 ++ b1 ++ b0))) ∧
  (∀ bytes : List Byte, bytes.length < 4 → ∃ n, decode 0x12 bytes = .reject .malformedProgram n) ∧
  ∀ (imm : Word) (s : State),
    (∀ (st : List Word) (v : Word), s.stack = st ++ [v] → v ≠ 0 →
      ∃ t, exec (.jnz imm) s = .next t ∧ t.ip = imm ∧ OnlyIpChanges s t) ∧
    (∀ st : List Word, s.stack = st ++ [0] →
      ∃ t, exec (.jnz imm) s = .next t ∧ t.ip = s.ip ∧ OnlyIpChanges s t) ∧
    (s.sp.val = 0 → ∃ t, exec (.jnz imm) s = .next t ∧ FaultsWithStackKept .underflow s t)

/-- R140, R180: CMP consumes both operands and pushes 1 if they are equal, else 0. -/
def Obligations.CmpPushesEquality : Prop :=
  (∀ rest : List Byte, decode 0x13 rest = .instr .cmp) ∧
  ∀ s : State,
    (∀ (st : List Word) (v : Word), s.stack = st ++ [v, v] →
      ∃ t, exec .cmp s = .next t ∧ t.stack = st ++ [1] ∧ OnlyStackChanges s t) ∧
    (∀ (st : List Word) (B A : Word), s.stack = st ++ [B, A] → B ≠ A →
      ∃ t, exec .cmp s = .next t ∧ t.stack = st ++ [0] ∧ OnlyStackChanges s t) ∧
    (s.sp.val < 2 → ∃ t, exec .cmp s = .next t ∧ EntersFault .underflow s t)

/-- R141 to R144, without the decisions D4 and D5: where the exact sum, difference, product or truncated quotient is a
32-bit signed number, that number is what ADD, SUB, MUL or DIV pushes. -/
def Obligations.ArithmeticIsExactWhereItFits : Prop :=
  ∀ (s : State) (st : List Word) (B A : Word) (i : Instr) (n : Int), s.stack = st ++ [B, A] →
    (i = .add ∧ n = B.toInt + A.toInt) ∨ (i = .sub ∧ n = B.toInt - A.toInt) ∨
      (i = .mul ∧ n = B.toInt * A.toInt) ∨ (i = .div ∧ A ≠ 0 ∧ n = Int.tdiv B.toInt A.toInt) →
    -2 ^ 31 ≤ n → n < 2 ^ 31 →
    ∃ t v, exec i s = .next t ∧ t.stack = st ++ [v] ∧ v.toInt = n ∧ OnlyStackChanges s t

/-- R143, R149, R150 in their second forms: the product read unsigned, and the shifts as operations on the pattern. -/
def Obligations.AluResultsInTheirBitPatternForms : Prop :=
  ∀ (s : State) (st : List Word) (B A : Word), s.stack = st ++ [B, A] →
    (∃ t, exec .mul s = .next t ∧ t.stack = st ++ [BitVec.ofNat 32 (B.toNat * A.toNat)]) ∧
    (∃ t, exec .add s = .next t ∧ t.stack = st ++ [B + A]) ∧
    (∃ t, exec .sub s = .next t ∧ t.stack = st ++ [B - A]) ∧
    (∃ t v, exec .shl s = .next t ∧ t.stack = st ++ [v] ∧ ∀ n, n < 32 →
      v.getLsbD n = (decide (A.toNat % 32 ≤ n) && B.getLsbD (n - A.toNat % 32))) ∧
    (∃ t v, exec .shr s = .next t ∧ t.stack = st ++ [v] ∧ ∀ n, n < 32 →
      v.getLsbD n = if n + A.toNat % 32 < 32 then B.getLsbD (n + A.toNat % 32) else B.getLsbD 31)

/-! ## Faults -/

/-- R207 (the run state's code 3 is the spec's decision D8 and the fault's code D9, log 8): fault entry sets the run state and the fault code, where the host sees them, and changes nothing else; the
state it starts from keeps what the instruction changed before, and no later statement of the instruction is performed
(`ip` is not spoken of, log 12). -/
def Obligations.FaultEntryKeepsEverythingElse : Prop :=
  ∀ (f : FaultKind) (s : State),
    (∃ t, (Res.raised f s).finish = .next t ∧ t.run = .faulted ∧ t.fault = some f ∧ t.runState = 3 ∧
      t.faultCodeAccessor = faultCode (some f) ∧ t.x = s.x ∧ t.S = s.S ∧ t.sp = s.sp ∧ t.cfg = s.cfg ∧
      t.prog = s.prog) ∧
    (∀ (α β : Type) (k : α → State → Res β), (Res.raised f s).andThen k = .raised f s)

/-- R202 (that a POPREG of an empty stack to a bad register names Underflow is the spec's decision D14, log 13): an
instruction raises Underflow exactly when the stack is below its minimum depth. -/
def Obligations.UnderflowExactlyBelowTheMinimumDepth : Prop :=
  ∀ (i : Instr) (s t : State), s.fault = none → exec i s = .next t →
    (t.fault = some .underflow ↔ s.sp.val < minDepth i)

/-- R201: Overflow is raised by PUSH, and by PUSHREG of a register, on a full stack, with the stack as before, and by
nothing else: never by an ALU instruction. -/
def Obligations.OverflowOnlyByPushesOnAFullStack : Prop :=
  (∀ (i : Instr) (s t : State), s.fault = none → exec i s = .next t → t.fault = some .overflow →
    s.sp.val = 2048 ∧ t.sp = s.sp ∧ t.S = s.S ∧ ((∃ imm, i = .push imm) ∨ ∃ r, i = .pushreg r)) ∧
  (∀ (imm : Word) (s : State), s.sp.val = 2048 →
    ∃ t, exec (.push imm) s = .next t ∧ FaultsWithStackKept .overflow s t) ∧
  (∀ (r : RegId) (s : State), s.sp.val = 2048 → r.toNat < 8 →
    ∃ t, exec (.pushreg r) s = .next t ∧ FaultsWithStackKept .overflow s t)

/-- R203, R72 (the orders of PUSHREG's and POPREG's checks are the spec's decisions D14 and D15, logs 13, 14): a bad
identifier raises InvalidRegister in each of the four register instructions, a well-formed instruction never raises it,
and the decoder accepts any identifier. -/
def Obligations.InvalidRegisterExactlyForBadIdentifiers : Prop :=
  (∀ (r : RegId) (s : State), 8 ≤ r.toNat →
    (∃ t, exec (.pushreg r) s = .next t ∧ FaultsWithStackKept .invalidRegister s t) ∧
    (∀ imm, ∃ t, exec (.lea r imm) s = .next t ∧ FaultsWithStackKept .invalidRegister s t) ∧
    (∀ rs, ∃ t, exec (.mov r rs) s = .next t ∧ FaultsWithStackKept .invalidRegister s t) ∧
    (∀ rd, ∃ t, exec (.mov rd r) s = .next t ∧ FaultsWithStackKept .invalidRegister s t) ∧
    (0 < s.sp.val → ∃ t, exec (.popreg r) s = .next t ∧ EntersFault .invalidRegister s t)) ∧
  (∀ (i : Instr) (s t : State), i.wellFormed = true → s.fault = none → exec i s = .next t →
    t.fault ≠ some .invalidRegister) ∧
  (∀ (r rs : Byte) (rest : List Byte), decode 0x02 (r :: rest) = .instr (.pushreg r) ∧
    decode 0x06 (r :: rest) = .instr (.popreg r) ∧ decode 0x03 (r :: rs :: rest) = .instr (.mov r rs) ∧
    ∀ b0 b1 b2 b3 : Byte,
      decode 0x04 (r :: b0 :: b1 :: b2 :: b3 :: rest) = .instr (.lea r (b3 ++ b2 ++ b1 ++ b0)))

/-- R204: DivisionByZero is raised by DIV when the former top is 0 and both pops can be done, and by nothing else. -/
def Obligations.DivisionByZeroExactlyForZeroDivisors : Prop :=
  ∀ (i : Instr) (s t : State), s.fault = none → exec i s = .next t →
    (t.fault = some .divisionByZero ↔ i = .div ∧ ∃ st B, s.stack = st ++ [B, 0])

/-- R209, R210 (with the spec's decisions D14 and D15, logs 13, 14): the fault an instruction raises is the first of its
row in R210's table, and it ends the run exactly when there is one. -/
def Obligations.InstructionsRaiseTheFirstFaultOfTheirRow : Prop :=
  ∀ (i : Instr) (s t : State), s.run = .running → s.fault = none → exec i s = .next t →
    t.fault = firstFault i s ∧ (t.run = .faulted ↔ ∃ f, firstFault i s = some f)

/-- R208 (its first and third rows are the spec's decisions D11 and D14, logs 10, 13; that a vacated slot reads 0 is D12,
log 11): a two-operand operator on one entry raises Underflow with that entry popped; and a fault changes no register, and
leaves the operands of a DIV by 0 and the top entry of a POPREG to a bad register popped, and in every other case the
stack as it was. -/
def Obligations.FaultsLeaveOnlyPopsBehind : Prop :=
  (∀ (i : Instr) (s : State), minDepth i = 2 → s.sp.val = 1 →
    ∃ t, exec i s = .next t ∧ EntersFault .underflow s t ∧ t.stack = [] ∧ cellRead t.S 0 = 0 ∧
      ∀ k, k ≠ 0 → cellRead t.S k = cellRead s.S k) ∧
  (∀ (i : Instr) (s t : State), s.run = .running → exec i s = .next t → t.run = .faulted →
    t.x = s.x ∧
    (minDepth i = 2 → s.sp.val = 1 → t.stack = []) ∧
    (i = .div → 2 ≤ s.sp.val → ∃ B, s.stack = t.stack ++ [B, 0]) ∧
    (∀ r, i = .popreg r → 1 ≤ s.sp.val → 8 ≤ r.toNat ∧ ∃ A, s.stack = t.stack ++ [A]) ∧
    (¬ (minDepth i = 2 ∧ s.sp.val = 1) → ¬ (i = .div ∧ 2 ≤ s.sp.val) → (∀ r, i = .popreg r → s.sp.val = 0) →
      t.S = s.S ∧ t.sp = s.sp))
end

