-- ==== Sys2Proof/Laws/Cells.lean ====
section
/-! SUPPORT. The laws of sparse storage: read after write, the canonical form is kept, and canonical storages that read
alike are equal. -/

namespace Sys2Proof.Machine

variable {w : Nat}

theorem cellRead_erase_same (m : List (Nat × BitVec w)) (a : Nat) : cellRead (cellErase m a) a = 0#w := by
  induction m with
  | nil => rfl
  | cons p rest ih =>
    obtain ⟨k, v⟩ := p
    by_cases h : k = a
    · simpa [cellErase, h] using ih
    · simpa [cellErase, h, cellRead] using ih

theorem cellRead_erase_other (m : List (Nat × BitVec w)) {a b : Nat} (hb : b ≠ a) :
    cellRead (cellErase m a) b = cellRead m b := by
  induction m with
  | nil => rfl
  | cons p rest ih =>
    obtain ⟨k, v⟩ := p
    by_cases h : k = a
    · subst h
      have hk : ¬ k = b := fun e => hb e.symm
      simpa [cellErase, cellRead, hk] using ih
    · simp [cellErase, h, cellRead, ih]

theorem cellRead_insert_other (m : List (Nat × BitVec w)) {a b : Nat} (v : BitVec w) (hb : b ≠ a) :
    cellRead (cellInsert m a v) b = cellRead m b := by
  have hab : ¬ a = b := fun e => hb e.symm
  induction m with
  | nil => simp [cellInsert, cellRead, hab]
  | cons p rest ih =>
    obtain ⟨k, u⟩ := p
    by_cases h : a < k
    · simp [cellInsert, h, cellRead, hab]
    · simp [cellInsert, h, cellRead, ih]

theorem cellRead_insert_same (m : List (Nat × BitVec w)) (a : Nat) (v : BitVec w) :
    cellRead (cellInsert (cellErase m a) a v) a = v := by
  induction m with
  | nil => simp [cellErase, cellInsert, cellRead]
  | cons p rest ih =>
    obtain ⟨k, u⟩ := p
    by_cases h : k = a
    · simpa [cellErase, h] using ih
    · by_cases h' : a < k
      · simp [cellErase, h, cellInsert, h', cellRead]
      · simpa [cellErase, h, cellInsert, h', cellRead] using ih

/-- A read after a write to the same index gives the value written. -/
@[simp] theorem cellRead_write_same (m : List (Nat × BitVec w)) (a : Nat) (v : BitVec w) :
    cellRead (cellWrite m a v) a = v := by
  unfold cellWrite
  split
  · next h => rw [h]; exact cellRead_erase_same m a
  · exact cellRead_insert_same m a v

/-- A write leaves every other index alone. -/
theorem cellRead_write_other (m : List (Nat × BitVec w)) {a b : Nat} (v : BitVec w) (hb : b ≠ a) :
    cellRead (cellWrite m a v) b = cellRead m b := by
  unfold cellWrite
  split
  · exact cellRead_erase_other m hb
  · rw [cellRead_insert_other _ v hb, cellRead_erase_other m hb]

theorem cellRead_write (m : List (Nat × BitVec w)) (a b : Nat) (v : BitVec w) :
    cellRead (cellWrite m a v) b = if b = a then v else cellRead m b := by
  split
  · next h => rw [h, cellRead_write_same]
  · next h => exact cellRead_write_other m v h

@[simp] theorem cellRead_nil (a : Nat) : cellRead ([] : List (Nat × BitVec w)) a = 0#w := rfl

/-! The canonical form. -/

theorem cellsRise_mono {lo lo' : Nat} {m : List (Nat × BitVec w)} (h : lo ≤ lo') (hm : cellsRise lo' m = true) :
    cellsRise lo m = true := by
  cases m with
  | nil => rfl
  | cons p rest =>
    simp only [cellsRise, Bool.and_eq_true, decide_eq_true_eq] at hm ⊢
    exact ⟨⟨le_trans h hm.1.1, hm.1.2⟩, hm.2⟩

theorem cellsRise_erase {lo : Nat} {m : List (Nat × BitVec w)} (a : Nat) (hm : cellsRise lo m = true) :
    cellsRise lo (cellErase m a) = true := by
  induction m generalizing lo with
  | nil => rfl
  | cons p rest ih =>
    obtain ⟨k, v⟩ := p
    simp only [cellsRise, Bool.and_eq_true, decide_eq_true_eq] at hm
    by_cases h : k = a
    · simp only [cellErase, h, if_true]
      exact cellsRise_mono (by omega) (ih hm.2)
    · simp only [cellErase, h, if_false, cellsRise, Bool.and_eq_true, decide_eq_true_eq]
      exact ⟨hm.1, ih hm.2⟩

theorem cellsBelow_erase {n : Nat} {m : List (Nat × BitVec w)} (a : Nat) (hm : cellsBelow n m = true) :
    cellsBelow n (cellErase m a) = true := by
  induction m with
  | nil => rfl
  | cons p rest ih =>
    obtain ⟨k, v⟩ := p
    simp only [cellsBelow, Bool.and_eq_true, decide_eq_true_eq] at hm
    by_cases h : k = a
    · simpa [cellErase, h] using ih hm.2
    · simp only [cellErase, h, if_false, cellsBelow, Bool.and_eq_true, decide_eq_true_eq]
      exact ⟨hm.1, ih hm.2⟩

theorem cellsRise_insert_erase {lo : Nat} {m : List (Nat × BitVec w)} {a : Nat} {v : BitVec w} (hv : v ≠ 0#w)
    (hlo : lo ≤ a) (hm : cellsRise lo m = true) : cellsRise lo (cellInsert (cellErase m a) a v) = true := by
  induction m generalizing lo with
  | nil => simp [cellErase, cellInsert, cellsRise, hv, hlo]
  | cons p rest ih =>
    obtain ⟨k, u⟩ := p
    simp only [cellsRise, Bool.and_eq_true, decide_eq_true_eq] at hm
    obtain ⟨⟨hk, hu⟩, hrest⟩ := hm
    by_cases h : k = a
    · simp only [cellErase, h, if_true]
      exact ih hlo (cellsRise_mono (by omega) hrest)
    · by_cases h' : a < k
      · simp only [cellErase, h, if_false, cellInsert, h', if_true, cellsRise, Bool.and_eq_true, decide_eq_true_eq]
        exact ⟨⟨hlo, hv⟩, ⟨by omega, hu⟩, cellsRise_erase a hrest⟩
      · simp only [cellErase, h, if_false, cellInsert, h', cellsRise, Bool.and_eq_true, decide_eq_true_eq]
        exact ⟨⟨hk, hu⟩, ih (by omega) hrest⟩

theorem cellsBelow_insert {n : Nat} {m : List (Nat × BitVec w)} {a : Nat} {v : BitVec w} (ha : a < n)
    (hm : cellsBelow n m = true) : cellsBelow n (cellInsert m a v) = true := by
  induction m with
  | nil => simp [cellInsert, cellsBelow, ha]
  | cons p rest ih =>
    obtain ⟨k, u⟩ := p
    simp only [cellsBelow, Bool.and_eq_true, decide_eq_true_eq] at hm
    by_cases h : a < k
    · simp [cellInsert, h, cellsBelow, ha, hm]
    · simp [cellInsert, h, cellsBelow, hm.1, ih hm.2]

/-- A write inside the storage keeps the canonical form. -/
theorem cellsWf_write {n : Nat} {m : List (Nat × BitVec w)} {a : Nat} (v : BitVec w) (ha : a < n)
    (hm : cellsWf n m = true) : cellsWf n (cellWrite m a v) = true := by
  simp only [cellsWf, Bool.and_eq_true] at hm ⊢
  unfold cellWrite
  split
  · exact ⟨cellsRise_erase a hm.1, cellsBelow_erase a hm.2⟩
  · next hv => exact ⟨cellsRise_insert_erase hv (Nat.zero_le a) hm.1, cellsBelow_insert ha (cellsBelow_erase a hm.2)⟩

theorem cellsBelow_mono {n n' : Nat} {m : List (Nat × BitVec w)} (h : n ≤ n') (hm : cellsBelow n m = true) :
    cellsBelow n' m = true := by
  induction m with
  | nil => rfl
  | cons p rest ih =>
    simp only [cellsBelow, Bool.and_eq_true, decide_eq_true_eq] at hm ⊢
    exact ⟨by omega, ih hm.2⟩

theorem cellsWf_mono {n n' : Nat} {m : List (Nat × BitVec w)} (h : n ≤ n') (hm : cellsWf n m = true) :
    cellsWf n' m = true := by
  simp only [cellsWf, Bool.and_eq_true] at hm ⊢
  exact ⟨hm.1, cellsBelow_mono h hm.2⟩

theorem cellsWf_writeList {n : Nat} {m : List (Nat × BitVec w)} {a : Nat} (vs : List (BitVec w))
    (ha : a + vs.length ≤ n) (hm : cellsWf n m = true) : cellsWf n (cellsWriteList m a vs) = true := by
  induction vs generalizing m a with
  | nil => exact hm
  | cons v vs ih =>
    simp only [List.length_cons] at ha
    exact ih (by omega) (cellsWf_write v (by omega) hm)

theorem cellsRise_ofList (a : Nat) (vs : List (BitVec w)) : cellsRise a (cellsOfList a vs) = true := by
  induction vs generalizing a with
  | nil => rfl
  | cons v vs ih =>
    by_cases h : v = 0#w
    · simpa [cellsOfList, h] using cellsRise_mono (Nat.le_succ a) (ih (a + 1))
    · simpa [cellsOfList, h, cellsRise] using ih (a + 1)

theorem cellsBelow_ofList (a : Nat) (vs : List (BitVec w)) : cellsBelow (a + vs.length) (cellsOfList a vs) = true := by
  induction vs generalizing a with
  | nil => rfl
  | cons v vs ih =>
    have hlen : a + (v :: vs).length = a + 1 + vs.length := by simp; omega
    rw [hlen]
    by_cases h : v = 0#w
    · simpa [cellsOfList, h] using ih (a + 1)
    · simp only [cellsOfList, h, if_false, cellsBelow, Bool.and_eq_true, decide_eq_true_eq]
      exact ⟨by omega, ih (a + 1)⟩

theorem cellsWf_ofList (vs : List (BitVec w)) : cellsWf vs.length (cellsOfList 0 vs) = true := by
  have := cellsBelow_ofList 0 vs
  simp only [Nat.zero_add] at this
  simp [cellsWf, cellsRise_ofList, this]

/-- An index below every index listed reads as 0. -/
theorem cellRead_below_rise {lo : Nat} {m : List (Nat × BitVec w)} (hm : cellsRise lo m = true) {a : Nat}
    (ha : a < lo) : cellRead m a = 0#w := by
  induction m generalizing lo with
  | nil => rfl
  | cons p rest ih =>
    obtain ⟨k, v⟩ := p
    simp only [cellsRise, Bool.and_eq_true, decide_eq_true_eq] at hm
    have hk : ¬ k = a := by omega
    simpa [cellRead, hk] using ih hm.2 (by omega)

/-- The storage of a list reads as the list, from its first index on. -/
theorem cellRead_ofList (a : Nat) (vs : List (BitVec w)) (i : Nat) :
    cellRead (cellsOfList a vs) (a + i) = (vs[i]?).getD 0#w := by
  induction vs generalizing a i with
  | nil => simp [cellsOfList]
  | cons v vs ih =>
    cases i with
    | zero =>
      by_cases h : v = 0#w
      · simpa [cellsOfList, h] using cellRead_below_rise (cellsRise_ofList (a + 1) vs) (Nat.lt_succ_self a)
      · simp [cellsOfList, h, cellRead]
    | succ i =>
      have hidx : a + (i + 1) = a + 1 + i := by omega
      rw [hidx]
      by_cases h : v = 0#w
      · simpa [cellsOfList, h] using ih (a + 1) i
      · have hk : ¬ a = a + 1 + i := by omega
        simpa [cellsOfList, h, cellRead, hk] using ih (a + 1) i

/-- Storage with a list written reads as the list where it was written and as before elsewhere. -/
theorem cellRead_writeList (m : List (Nat × BitVec w)) (a : Nat) (vs : List (BitVec w)) (b : Nat) :
    cellRead (cellsWriteList m a vs) b =
      if a ≤ b ∧ b < a + vs.length then (vs[b - a]?).getD 0#w else cellRead m b := by
  induction vs generalizing m a with
  | nil =>
    have h : ¬ (a ≤ b ∧ b < a + ([] : List (BitVec w)).length) := by simp
    rw [if_neg h]
    rfl
  | cons v vs ih =>
    simp only [cellsWriteList, ih, cellRead_write, List.length_cons]
    by_cases hb : b = a
    · subst hb
      rw [if_neg (by omega), if_pos (by omega)]
      simp
    · by_cases hr : a + 1 ≤ b ∧ b < a + 1 + vs.length
      · have h3 : b - a = (b - (a + 1)) + 1 := by omega
        rw [if_pos hr, if_pos (by omega), h3, List.getElem?_cons_succ]
      · rw [if_neg hr, if_neg hb, if_neg (by omega)]

/-- Canonical storages that read alike at every index are equal. -/
theorem cellsRise_ext {lo : Nat} {m m' : List (Nat × BitVec w)} (hm : cellsRise lo m = true)
    (hm' : cellsRise lo m' = true) (h : ∀ a, cellRead m a = cellRead m' a) : m = m' := by
  induction m generalizing lo m' with
  | nil =>
    cases m' with
    | nil => rfl
    | cons p rest =>
      obtain ⟨k, v⟩ := p
      simp only [cellsRise, Bool.and_eq_true, decide_eq_true_eq] at hm'
      exact absurd (by simpa [cellRead] using (h k).symm) hm'.1.2
  | cons p rest ih =>
    obtain ⟨k, v⟩ := p
    simp only [cellsRise, Bool.and_eq_true, decide_eq_true_eq] at hm
    cases m' with
    | nil => exact absurd (by simpa [cellRead] using h k) hm.1.2
    | cons p' rest' =>
      obtain ⟨k', v'⟩ := p'
      simp only [cellsRise, Bool.and_eq_true, decide_eq_true_eq] at hm'
      have hk : k = k' := by
        rcases Nat.lt_trichotomy k k' with hlt | heq | hgt
        · have h0 : cellRead rest' k = 0#w := cellRead_below_rise hm'.2 (by omega)
          have hne : ¬ k' = k := by omega
          exact absurd (by simpa [cellRead, hne, h0] using h k) hm.1.2
        · exact heq
        · have h0 : cellRead rest k' = 0#w := cellRead_below_rise hm.2 (by omega)
          have hne : ¬ k = k' := by omega
          exact absurd (by simpa [cellRead, hne, h0] using (h k').symm) hm'.1.2
      subst hk
      have hv : v = v' := by simpa [cellRead] using h k
      subst hv
      have hrest : rest = rest' := by
        refine ih hm.2 hm'.2 fun a => ?_
        by_cases ha : k = a
        · subst ha
          rw [cellRead_below_rise hm.2 (Nat.lt_succ_self k), cellRead_below_rise hm'.2 (Nat.lt_succ_self k)]
        · simpa [cellRead, ha] using h a
      rw [hrest]

theorem cellsWf_ext {n n' : Nat} {m m' : List (Nat × BitVec w)} (hm : cellsWf n m = true) (hm' : cellsWf n' m' = true)
    (h : ∀ a, cellRead m a = cellRead m' a) : m = m' := by
  simp only [cellsWf, Bool.and_eq_true] at hm hm'
  exact cellsRise_ext hm.1 hm'.1 h

end Sys2Proof.Machine
end

