-- ==== Sys2Proof/Laws/Encoding.lean ====
section
/-! SUPPORT. The byte-order lemmas of the encoder and the decoder. -/

namespace Sys2Proof

/-- The four bytes of a word assemble to the word (30_encoding.md R73). -/
theorem wordOfBytes_bytesOfWord (v : Word) :
    wordOfBytes (v.extractLsb' 0 8) (v.extractLsb' 8 8) (v.extractLsb' 16 8) (v.extractLsb' 24 8) = v := by
  apply BitVec.eq_of_toNat_eq
  simp only [wordOfBytes, BitVec.toNat_append, BitVec.extractLsb'_toNat, Nat.shiftRight_eq_div_pow]
  have hv := v.isLt
  rw [Nat.shiftLeft_eq, Nat.shiftLeft_eq, Nat.shiftLeft_eq]
  simp only [Nat.mul_comm _ (2 ^ _)]
  rw [← Nat.two_pow_add_eq_or_of_lt (Nat.mod_lt _ (by decide)), ← Nat.two_pow_add_eq_or_of_lt (Nat.mod_lt _ (by decide)),
    ← Nat.two_pow_add_eq_or_of_lt (Nat.mod_lt _ (by decide))]
  omega

/-- The unsigned value of four bytes in offset order (20_memory.md R52). -/
theorem wordOfBytes_toNat (b0 b1 b2 b3 : Byte) :
    (wordOfBytes b0 b1 b2 b3).toNat = b0.toNat + 2 ^ 8 * b1.toNat + 2 ^ 16 * b2.toNat + 2 ^ 24 * b3.toNat := by
  simp only [wordOfBytes, BitVec.toNat_append]
  rw [Nat.shiftLeft_eq, Nat.shiftLeft_eq, Nat.shiftLeft_eq]
  simp only [Nat.mul_comm _ (2 ^ _)]
  rw [← Nat.two_pow_add_eq_or_of_lt b2.isLt, ← Nat.two_pow_add_eq_or_of_lt b1.isLt,
    ← Nat.two_pow_add_eq_or_of_lt b0.isLt]
  omega

@[simp] theorem bytesOfWord_length (v : Word) : (bytesOfWord v).length = 4 := rfl

/-- An immediate's bytes are read back as the immediate, with nothing more consumed. -/
@[simp] theorem readImm_bytesOfWord (v : Word) (rest : List Byte) : readImm (bytesOfWord v ++ rest) = some (v, rest) := by
  show some (wordOfBytes _ _ _ _, rest) = _
  rw [wordOfBytes_bytesOfWord]

@[simp] theorem readReg_cons (r : RegId) (rest : List Byte) : readReg (r :: rest) = some (r, rest) := rfl

/-- `ReadReg` raises exactly when no byte is left. -/
theorem readReg_eq_none (bytes : List Byte) : readReg bytes = none ↔ bytes.length < 1 := by
  cases bytes <;> simp [readReg]

/-- `ReadImm` raises exactly when fewer than four bytes are left. -/
theorem readImm_eq_none (bytes : List Byte) : readImm bytes = none ↔ bytes.length < 4 := by
  match bytes with
  | [] => simp [readImm]
  | [_] => simp [readImm]
  | [_, _] => simp [readImm]
  | [_, _, _] => simp [readImm]
  | _ :: _ :: _ :: _ :: _ => simp [readImm]

theorem readImm_eq_some {bytes rest : List Byte} {v : Word} (h : readImm bytes = some (v, rest)) :
    ∃ b0 b1 b2 b3, bytes = b0 :: b1 :: b2 :: b3 :: rest ∧ v = wordOfBytes b0 b1 b2 b3 := by
  match bytes with
  | [] => simp [readImm] at h
  | [_] => simp [readImm] at h
  | [_, _] => simp [readImm] at h
  | [_, _, _] => simp [readImm] at h
  | b0 :: b1 :: b2 :: b3 :: r =>
    simp only [readImm, Option.some.injEq, Prod.mk.injEq] at h
    exact ⟨b0, b1, b2, b3, by rw [h.2], h.1.symm⟩

/-! The opcode map and operand decode, inverted. -/

/-- The rows of the opcode map (30_encoding.md R76). -/
inductive OpcodeEntry : Byte → OpcodeRow → Prop
  | halt : OpcodeEntry 0 (.f0 .halt)
  | push : OpcodeEntry 1 (.fi .push)
  | pushreg : OpcodeEntry 2 (.fr .pushreg)
  | mov : OpcodeEntry 3 (.frr .mov)
  | lea : OpcodeEntry 4 (.fri .lea)
  | pop : OpcodeEntry 5 (.f0 .pop)
  | popreg : OpcodeEntry 6 (.fr .popreg)
  | add : OpcodeEntry 7 (.f0 .add)
  | sub : OpcodeEntry 8 (.f0 .sub)
  | mul : OpcodeEntry 9 (.f0 .mul)
  | div : OpcodeEntry 10 (.f0 .div)
  | and : OpcodeEntry 11 (.f0 .and)
  | or : OpcodeEntry 12 (.f0 .or)
  | not : OpcodeEntry 13 (.f0 .not)
  | shl : OpcodeEntry 14 (.f0 .shl)
  | shr : OpcodeEntry 15 (.f0 .shr)
  | jmp : OpcodeEntry 16 (.fi .jmp)
  | jz : OpcodeEntry 17 (.fi .jz)
  | jnz : OpcodeEntry 18 (.fi .jnz)
  | cmp : OpcodeEntry 19 (.f0 .cmp)

theorem opcodeRow_entry {op : Byte} {row : OpcodeRow} (h : opcodeRow op = some row) : OpcodeEntry op row := by
  have hop : op = BitVec.ofNat 8 op.toNat := by simp
  generalize hn : op.toNat = n at hop
  rw [hop]
  unfold opcodeRow at h
  rw [hn] at h
  split at h <;> cases h <;> constructor

/-- A byte is illegal exactly when it is 20 or more (R77). -/
theorem opcodeRow_eq_none (op : Byte) : opcodeRow op = none ↔ 20 ≤ op.toNat := by
  constructor
  · intro h
    by_contra hlt
    unfold opcodeRow at h
    generalize op.toNat = n at h hlt
    have : n < 20 := by omega
    interval_cases n <;> simp at h
  · intro h
    unfold opcodeRow
    split <;> first | rfl | omega

theorem decodeOperands_fr {mk : RegId → Instr} {bytes : List Byte} {i : Instr}
    (h : decodeOperands (.fr mk) bytes = .instr i) : ∃ r rest, bytes = r :: rest ∧ i = mk r := by
  cases bytes with
  | nil => cases h
  | cons r rest => cases h; exact ⟨r, rest, rfl, rfl⟩

theorem decodeOperands_frr {mk : RegId → RegId → Instr} {bytes : List Byte} {i : Instr}
    (h : decodeOperands (.frr mk) bytes = .instr i) : ∃ rd rs rest, bytes = rd :: rs :: rest ∧ i = mk rd rs := by
  match bytes with
  | [] => cases h
  | [_] => cases h
  | rd :: rs :: rest => cases h; exact ⟨rd, rs, rest, rfl, rfl⟩

theorem decodeOperands_fi {mk : Word → Instr} {bytes : List Byte} {i : Instr}
    (h : decodeOperands (.fi mk) bytes = .instr i) :
    ∃ b0 b1 b2 b3 rest, bytes = b0 :: b1 :: b2 :: b3 :: rest ∧ i = mk (wordOfBytes b0 b1 b2 b3) := by
  match bytes with
  | [] => cases h
  | [_] => cases h
  | [_, _] => cases h
  | [_, _, _] => cases h
  | b0 :: b1 :: b2 :: b3 :: rest => cases h; exact ⟨b0, b1, b2, b3, rest, rfl, rfl⟩

theorem decodeOperands_fri {mk : RegId → Word → Instr} {bytes : List Byte} {i : Instr}
    (h : decodeOperands (.fri mk) bytes = .instr i) :
    ∃ r b0 b1 b2 b3 rest, bytes = r :: b0 :: b1 :: b2 :: b3 :: rest ∧ i = mk r (wordOfBytes b0 b1 b2 b3) := by
  match bytes with
  | [] => cases h
  | [_] => cases h
  | [_, _] => cases h
  | [_, _, _] => cases h
  | [_, _, _, _] => cases h
  | r :: b0 :: b1 :: b2 :: b3 :: rest => cases h; exact ⟨r, b0, b1, b2, b3, rest, rfl, rfl⟩

/-- A rejected operand decode is always a malformed program (R79). -/
theorem decodeOperands_reject {row : OpcodeRow} {bytes : List Byte} {e : DecodeError} {n : Nat}
    (h : decodeOperands row bytes = .reject e n) : e = .malformedProgram := by
  cases row <;> simp only [decodeOperands] at h
  all_goals (repeat' split at h) <;> cases h <;> rfl

/-- The bytes of an assembled word are the bytes it was assembled from. -/
theorem bytesOfWord_wordOfBytes (b0 b1 b2 b3 : Byte) : bytesOfWord (wordOfBytes b0 b1 b2 b3) = [b0, b1, b2, b3] := by
  have h := wordOfBytes_toNat b0 b1 b2 b3
  have h0 := b0.isLt
  have h1 := b1.isLt
  have h2 := b2.isLt
  have h3 := b3.isLt
  have e0 : (wordOfBytes b0 b1 b2 b3).extractLsb' 0 8 = b0 := BitVec.eq_of_toNat_eq (by
    simp only [BitVec.extractLsb'_toNat, h, Nat.shiftRight_eq_div_pow]; omega)
  have e1 : (wordOfBytes b0 b1 b2 b3).extractLsb' 8 8 = b1 := BitVec.eq_of_toNat_eq (by
    simp only [BitVec.extractLsb'_toNat, h, Nat.shiftRight_eq_div_pow]; omega)
  have e2 : (wordOfBytes b0 b1 b2 b3).extractLsb' 16 8 = b2 := BitVec.eq_of_toNat_eq (by
    simp only [BitVec.extractLsb'_toNat, h, Nat.shiftRight_eq_div_pow]; omega)
  have e3 : (wordOfBytes b0 b1 b2 b3).extractLsb' 24 8 = b3 := BitVec.eq_of_toNat_eq (by
    simp only [BitVec.extractLsb'_toNat, h, Nat.shiftRight_eq_div_pow]; omega)
  rw [bytesOfWord, e0, e1, e2, e3]

@[simp] theorem encode_length (i : Instr) : (encode i).length = i.length := by cases i <;> rfl

theorem length_pos (i : Instr) : 0 < i.length := by cases i <;> simp [Instr.length]

theorem length_le (i : Instr) : i.length ≤ maxInstrLen := by cases i <;> simp [Instr.length, maxInstrLen]

/-- The bytes of an opcode-table row are as many as the longest instruction's. -/
theorem tableBytes_length (nbits w : Nat) : (tableBytes nbits w).length = maxInstrLen := by
  simp [tableBytes, leBytes]

end Sys2Proof
end

