-- ==== Sys2Proof/Laws/State.lean ====
section
/-! SUPPORT. One lemma per field per update of State, so that no proof unfolds a record update. -/

namespace Sys2Proof.Machine

@[simp] theorem State.withX_x (s : State) (x : Vector Word numRegs) : (s.withX x).x = x := rfl
@[simp] theorem State.withX_S (s : State) (x : Vector Word numRegs) : (s.withX x).S = s.S := rfl
@[simp] theorem State.withX_sp (s : State) (x : Vector Word numRegs) : (s.withX x).sp = s.sp := rfl
@[simp] theorem State.withX_ip (s : State) (x : Vector Word numRegs) : (s.withX x).ip = s.ip := rfl
@[simp] theorem State.withX_run (s : State) (x : Vector Word numRegs) : (s.withX x).run = s.run := rfl
@[simp] theorem State.withX_fault (s : State) (x : Vector Word numRegs) : (s.withX x).fault = s.fault := rfl
@[simp] theorem State.withX_prog (s : State) (x : Vector Word numRegs) : (s.withX x).prog = s.prog := rfl
@[simp] theorem State.withX_cfg (s : State) (x : Vector Word numRegs) : (s.withX x).cfg = s.cfg := rfl

@[simp] theorem State.withStack_x (s : State) (S : List (Nat × Word)) (sp : Fin (stackCap + 1)) : (s.withStack S sp).x = s.x := rfl
@[simp] theorem State.withStack_S (s : State) (S : List (Nat × Word)) (sp : Fin (stackCap + 1)) : (s.withStack S sp).S = S := rfl
@[simp] theorem State.withStack_sp (s : State) (S : List (Nat × Word)) (sp : Fin (stackCap + 1)) : (s.withStack S sp).sp = sp := rfl
@[simp] theorem State.withStack_ip (s : State) (S : List (Nat × Word)) (sp : Fin (stackCap + 1)) : (s.withStack S sp).ip = s.ip := rfl
@[simp] theorem State.withStack_run (s : State) (S : List (Nat × Word)) (sp : Fin (stackCap + 1)) : (s.withStack S sp).run = s.run := rfl
@[simp] theorem State.withStack_fault (s : State) (S : List (Nat × Word)) (sp : Fin (stackCap + 1)) : (s.withStack S sp).fault = s.fault := rfl
@[simp] theorem State.withStack_prog (s : State) (S : List (Nat × Word)) (sp : Fin (stackCap + 1)) : (s.withStack S sp).prog = s.prog := rfl
@[simp] theorem State.withStack_cfg (s : State) (S : List (Nat × Word)) (sp : Fin (stackCap + 1)) : (s.withStack S sp).cfg = s.cfg := rfl

@[simp] theorem State.withIp_x (s : State) (ip : Word) : (s.withIp ip).x = s.x := rfl
@[simp] theorem State.withIp_S (s : State) (ip : Word) : (s.withIp ip).S = s.S := rfl
@[simp] theorem State.withIp_sp (s : State) (ip : Word) : (s.withIp ip).sp = s.sp := rfl
@[simp] theorem State.withIp_ip (s : State) (ip : Word) : (s.withIp ip).ip = ip := rfl
@[simp] theorem State.withIp_run (s : State) (ip : Word) : (s.withIp ip).run = s.run := rfl
@[simp] theorem State.withIp_fault (s : State) (ip : Word) : (s.withIp ip).fault = s.fault := rfl
@[simp] theorem State.withIp_prog (s : State) (ip : Word) : (s.withIp ip).prog = s.prog := rfl
@[simp] theorem State.withIp_cfg (s : State) (ip : Word) : (s.withIp ip).cfg = s.cfg := rfl

@[simp] theorem State.withRun_x (s : State) (run : RunState) (fault : Option FaultKind) : (s.withRun run fault).x = s.x := rfl
@[simp] theorem State.withRun_S (s : State) (run : RunState) (fault : Option FaultKind) : (s.withRun run fault).S = s.S := rfl
@[simp] theorem State.withRun_sp (s : State) (run : RunState) (fault : Option FaultKind) : (s.withRun run fault).sp = s.sp := rfl
@[simp] theorem State.withRun_ip (s : State) (run : RunState) (fault : Option FaultKind) : (s.withRun run fault).ip = s.ip := rfl
@[simp] theorem State.withRun_run (s : State) (run : RunState) (fault : Option FaultKind) : (s.withRun run fault).run = run := rfl
@[simp] theorem State.withRun_fault (s : State) (run : RunState) (fault : Option FaultKind) : (s.withRun run fault).fault = fault := rfl
@[simp] theorem State.withRun_prog (s : State) (run : RunState) (fault : Option FaultKind) : (s.withRun run fault).prog = s.prog := rfl
@[simp] theorem State.withRun_cfg (s : State) (run : RunState) (fault : Option FaultKind) : (s.withRun run fault).cfg = s.cfg := rfl

@[simp] theorem State.withProg_x (s : State) (prog : Memory) : (s.withProg prog).x = s.x := rfl
@[simp] theorem State.withProg_S (s : State) (prog : Memory) : (s.withProg prog).S = s.S := rfl
@[simp] theorem State.withProg_sp (s : State) (prog : Memory) : (s.withProg prog).sp = s.sp := rfl
@[simp] theorem State.withProg_ip (s : State) (prog : Memory) : (s.withProg prog).ip = s.ip := rfl
@[simp] theorem State.withProg_run (s : State) (prog : Memory) : (s.withProg prog).run = s.run := rfl
@[simp] theorem State.withProg_fault (s : State) (prog : Memory) : (s.withProg prog).fault = s.fault := rfl
@[simp] theorem State.withProg_prog (s : State) (prog : Memory) : (s.withProg prog).prog = prog := rfl
@[simp] theorem State.withProg_cfg (s : State) (prog : Memory) : (s.withProg prog).cfg = s.cfg := rfl

@[simp] theorem takeFault_x (f : FaultKind) (s : State) : (takeFault f s).x = s.x := rfl
@[simp] theorem takeFault_S (f : FaultKind) (s : State) : (takeFault f s).S = s.S := rfl
@[simp] theorem takeFault_sp (f : FaultKind) (s : State) : (takeFault f s).sp = s.sp := rfl
@[simp] theorem takeFault_ip (f : FaultKind) (s : State) : (takeFault f s).ip = s.ip := rfl
@[simp] theorem takeFault_run (f : FaultKind) (s : State) : (takeFault f s).run = .faulted := rfl
@[simp] theorem takeFault_fault (f : FaultKind) (s : State) : (takeFault f s).fault = some f := rfl
@[simp] theorem takeFault_prog (f : FaultKind) (s : State) : (takeFault f s).prog = s.prog := rfl
@[simp] theorem takeFault_cfg (f : FaultKind) (s : State) : (takeFault f s).cfg = s.cfg := rfl

@[simp] theorem haltRun_x (s : State) : (haltRun s).x = s.x := rfl
@[simp] theorem haltRun_S (s : State) : (haltRun s).S = s.S := rfl
@[simp] theorem haltRun_sp (s : State) : (haltRun s).sp = s.sp := rfl
@[simp] theorem haltRun_ip (s : State) : (haltRun s).ip = s.ip := rfl
@[simp] theorem haltRun_run (s : State) : (haltRun s).run = .halted := rfl
@[simp] theorem haltRun_fault (s : State) : (haltRun s).fault = s.fault := rfl
@[simp] theorem haltRun_prog (s : State) : (haltRun s).prog = s.prog := rfl
@[simp] theorem haltRun_cfg (s : State) : (haltRun s).cfg = s.cfg := rfl

@[simp] theorem ipAdvance_x (s : State) (n : Nat) : (ipAdvance s n).x = s.x := rfl
@[simp] theorem ipAdvance_S (s : State) (n : Nat) : (ipAdvance s n).S = s.S := rfl
@[simp] theorem ipAdvance_sp (s : State) (n : Nat) : (ipAdvance s n).sp = s.sp := rfl
@[simp] theorem ipAdvance_ip (s : State) (n : Nat) : (ipAdvance s n).ip = s.ip + BitVec.ofNat 32 n := rfl
@[simp] theorem ipAdvance_run (s : State) (n : Nat) : (ipAdvance s n).run = s.run := rfl
@[simp] theorem ipAdvance_fault (s : State) (n : Nat) : (ipAdvance s n).fault = s.fault := rfl
@[simp] theorem ipAdvance_prog (s : State) (n : Nat) : (ipAdvance s n).prog = s.prog := rfl
@[simp] theorem ipAdvance_cfg (s : State) (n : Nat) : (ipAdvance s n).cfg = s.cfg := rfl

/-- Two states with equal fields are equal. -/
theorem State.ext_fields {s t : State} (hx : s.x = t.x) (hS : s.S = t.S) (hsp : s.sp = t.sp) (hip : s.ip = t.ip)
    (hrun : s.run = t.run) (hfault : s.fault = t.fault) (hprog : s.prog = t.prog) (hcfg : s.cfg = t.cfg) : s = t := by
  cases s; cases t; simp_all

@[simp] theorem State.reset_x : State.reset.x = Vector.replicate numRegs 0 := rfl
@[simp] theorem State.reset_S : State.reset.S = [] := rfl
@[simp] theorem State.reset_sp : State.reset.sp = 0 := rfl
@[simp] theorem State.reset_ip : State.reset.ip = 0 := rfl
@[simp] theorem State.reset_run : State.reset.run = .idle := rfl
@[simp] theorem State.reset_fault : State.reset.fault = none := rfl
@[simp] theorem State.reset_prog : State.reset.prog = { cells := [], len := 0 } := rfl
@[simp] theorem State.reset_cfg : State.reset.cfg = Config.default := rfl

end Sys2Proof.Machine
end

