-- ==== Sys2Proof/Laws/Ops.lean ====
section
/-! SUPPORT. One spec lemma per shared operation: everything it can answer, cited instead of unfolding it. -/

namespace Sys2Proof.Machine

/-! Sequence. -/

@[simp] theorem Res.andThen_ok {α β : Type} (a : α) (s : State) (k : α → State → Res β) :
    (Res.ok a s).andThen k = k a s := rfl

@[simp] theorem Res.andThen_raised {α β : Type} (f : FaultKind) (s : State) (k : α → State → Res β) :
    (Res.raised f s : Res α).andThen k = .raised f s := rfl

@[simp] theorem Res.finish_ok (u : Unit) (s : State) : (Res.ok u s).finish = .next s := rfl

@[simp] theorem Res.finish_raised (f : FaultKind) (s : State) : (Res.raised f s).finish = .next (takeFault f s) := rfl

/-- An instruction always answers a next state. -/
theorem Res.finish_next (r : Res Unit) : ∃ t, r.finish = .next t := by
  cases r <;> exact ⟨_, rfl⟩

/-! Registers. -/

theorem RegId.valid_iff (r : RegId) : RegId.valid r = true ↔ r.toNat < numRegs := by simp [RegId.valid]

theorem regRead_of_valid {r : RegId} (h : r.toNat < numRegs) (s : State) : regRead r s = .ok s.x[r.toNat] s := by
  rw [regRead, dif_pos h]

theorem regRead_of_invalid {r : RegId} (h : ¬ r.toNat < numRegs) (s : State) :
    regRead r s = .raised .invalidRegister s := by
  rw [regRead, dif_neg h]

theorem regWrite_of_valid {r : RegId} (h : r.toNat < numRegs) (v : Word) (s : State) :
    regWrite r v s = .ok () (s.withX (s.x.set r.toNat v)) := by
  rw [regWrite, dif_pos h]

theorem regWrite_of_invalid {r : RegId} (h : ¬ r.toNat < numRegs) (v : Word) (s : State) :
    regWrite r v s = .raised .invalidRegister s := by
  rw [regWrite, dif_neg h]

/-! The stack pointer. -/

@[simp] theorem spUp_val (sp : Fin (stackCap + 1)) (h : sp.val ≠ stackCap) : (spUp sp h).val = sp.val + 1 := rfl

@[simp] theorem spDown_val (sp : Fin (stackCap + 1)) : (spDown sp).val = sp.val - 1 := rfl

theorem sp_le (s : State) : s.sp.val ≤ stackCap := Nat.le_of_lt_succ s.sp.isLt

/-! Push, pop, top. -/

theorem push_of_full {s : State} (h : s.sp.val = stackCap) (v : Word) : push v s = .raised .overflow s := by
  rw [push, dif_pos h]

theorem push_of_room {s : State} (h : s.sp.val ≠ stackCap) (v : Word) :
    push v s = .ok () (s.withStack (cellWrite s.S s.sp.val v) (spUp s.sp h)) := by
  rw [push, dif_neg h]

theorem pop_of_empty {s : State} (h : s.sp.val = 0) : pop s = .raised .underflow s := by
  rw [pop, if_pos h]

theorem pop_of_pos {s : State} (h : s.sp.val ≠ 0) :
    pop s = .ok (cellRead s.S (s.sp.val - 1)) (s.withStack (cellWrite s.S (s.sp.val - 1) 0) (spDown s.sp)) := by
  rw [pop, if_neg h]

theorem top_of_empty {s : State} (h : s.sp.val = 0) : top s = .raised .underflow s := by
  rw [top, if_pos h]

theorem top_of_pos {s : State} (h : s.sp.val ≠ 0) : top s = .ok (cellRead s.S (s.sp.val - 1)) s := by
  rw [top, if_neg h]

/-! The operand forms. -/

/-- The state after the one pop that a one-entry stack allows. -/
def poppedOne (s : State) : State := s.withStack (cellWrite s.S (s.sp.val - 1) 0) (spDown s.sp)

/-- The state after two pops. -/
def poppedTwo (s : State) : State :=
  s.withStack (cellWrite (cellWrite s.S (s.sp.val - 1) 0) (s.sp.val - 1 - 1) 0) (spDown (spDown s.sp))

theorem popTwo_of_one {s : State} (h : s.sp.val = 1) : popTwo s = .raised .underflow (poppedOne s) := by
  have h0 : s.sp.val ≠ 0 := by omega
  have h1 : (poppedOne s).sp.val = 0 := by simp [poppedOne, h]
  rw [popTwo, pop_of_pos h0, Res.andThen_ok]
  show (pop (poppedOne s)).andThen _ = _
  rw [pop_of_empty h1, Res.andThen_raised]

theorem popTwo_of_empty {s : State} (h : s.sp.val = 0) : popTwo s = .raised .underflow s := by
  rw [popTwo, pop_of_empty h, Res.andThen_raised]

/-- With two entries or more, both pops are done; the second entry is read as it stood. -/
theorem popTwo_of_two {s : State} (h : 2 ≤ s.sp.val) :
    popTwo s = .ok (cellRead s.S (s.sp.val - 1), cellRead s.S (s.sp.val - 2)) (poppedTwo s) := by
  have h0 : s.sp.val ≠ 0 := by omega
  have h1 : (poppedOne s).sp.val ≠ 0 := by simp [poppedOne]; omega
  rw [popTwo, pop_of_pos h0, Res.andThen_ok]
  show (pop (poppedOne s)).andThen _ = _
  rw [pop_of_pos h1, Res.andThen_ok]
  have hr : cellRead (poppedOne s).S ((poppedOne s).sp.val - 1) = cellRead s.S (s.sp.val - 2) := by
    show cellRead (cellWrite s.S (s.sp.val - 1) 0) (s.sp.val - 1 - 1) = _
    rw [cellRead_write_other _ _ (by omega)]
    rfl
  rw [hr]
  rfl

/-- After two pops there is room for a push. -/
theorem poppedTwo_room {s : State} (h : 2 ≤ s.sp.val) : (poppedTwo s).sp.val ≠ stackCap := by
  have := sp_le s
  simp only [poppedTwo, State.withStack_sp, spDown_val]
  omega

theorem poppedOne_room {s : State} (h : s.sp.val ≠ 0) : (poppedOne s).sp.val ≠ stackCap := by
  have := sp_le s
  simp only [poppedOne, State.withStack_sp, spDown_val]
  omega

/-- The state after two pops and a push. -/
def replacedTwo (v : Word) (s : State) : State :=
  s.withStack (cellWrite (poppedTwo s).S (s.sp.val - 2) v) (spDown s.sp)

/-- The state after one pop and a push. -/
def replacedOne (v : Word) (s : State) : State :=
  s.withStack (cellWrite (poppedOne s).S (s.sp.val - 1) v) s.sp

theorem push_poppedTwo {s : State} (h : 2 ≤ s.sp.val) (v : Word) : push v (poppedTwo s) = .ok () (replacedTwo v s) := by
  rw [push_of_room (poppedTwo_room h)]
  congr 1
  refine State.ext_fields rfl rfl (Fin.ext ?_) rfl rfl rfl rfl rfl
  simp only [State.withStack_sp, spUp_val, replacedTwo, poppedTwo, spDown_val]
  omega

theorem push_poppedOne {s : State} (h : s.sp.val ≠ 0) (v : Word) : push v (poppedOne s) = .ok () (replacedOne v s) := by
  rw [push_of_room (poppedOne_room h)]
  congr 1
  refine State.ext_fields rfl rfl (Fin.ext ?_) rfl rfl rfl rfl rfl
  simp only [State.withStack_sp, spUp_val, replacedOne, poppedOne, spDown_val]
  omega

theorem binop_of_empty (f : Word → Word → Word) {s : State} (h : s.sp.val = 0) :
    binop f s = .raised .underflow s := by
  rw [binop, popTwo_of_empty h, Res.andThen_raised]

theorem binop_of_one (f : Word → Word → Word) {s : State} (h : s.sp.val = 1) :
    binop f s = .raised .underflow (poppedOne s) := by
  rw [binop, popTwo_of_one h, Res.andThen_raised]

/-- With two entries or more a binary operator completes (42_alu.md R140). -/
theorem binop_of_two (f : Word → Word → Word) {s : State} (h : 2 ≤ s.sp.val) :
    binop f s = .ok () (replacedTwo (f (cellRead s.S (s.sp.val - 2)) (cellRead s.S (s.sp.val - 1))) s) := by
  rw [binop, popTwo_of_two h, Res.andThen_ok, push_poppedTwo h]

theorem unop_of_empty (f : Word → Word) {s : State} (h : s.sp.val = 0) : unop f s = .raised .underflow s := by
  rw [unop, pop_of_empty h, Res.andThen_raised]

theorem unop_of_pos (f : Word → Word) {s : State} (h : s.sp.val ≠ 0) :
    unop f s = .ok () (replacedOne (f (cellRead s.S (s.sp.val - 1))) s) := by
  rw [unop, pop_of_pos h, Res.andThen_ok]
  exact push_poppedOne h _

/-! What the popped and replaced states hold. -/

@[simp] theorem poppedOne_sp (s : State) : (poppedOne s).sp = spDown s.sp := rfl
@[simp] theorem poppedTwo_sp (s : State) : (poppedTwo s).sp = spDown (spDown s.sp) := rfl
@[simp] theorem replacedOne_sp (v : Word) (s : State) : (replacedOne v s).sp = s.sp := rfl
@[simp] theorem replacedTwo_sp (v : Word) (s : State) : (replacedTwo v s).sp = spDown s.sp := rfl

/-- One pop changes its own slot only. -/
theorem poppedOne_read (s : State) (i : Nat) :
    cellRead (poppedOne s).S i = if i = s.sp.val - 1 then 0 else cellRead s.S i := by
  simp only [poppedOne, State.withStack_S, cellRead_write]

/-- Two pops change their own slots only. -/
theorem poppedTwo_read (s : State) (i : Nat) :
    cellRead (poppedTwo s).S i = if i = s.sp.val - 1 - 1 then 0 else if i = s.sp.val - 1 then 0 else cellRead s.S i := by
  simp only [poppedTwo, State.withStack_S, cellRead_write]

/-- The pops keep the storage in canonical form. -/
theorem poppedOne_wf {s : State} (h0 : s.sp.val ≠ 0) (h : cellsWf stackCap s.S = true) :
    cellsWf stackCap (poppedOne s).S = true := by
  have := sp_le s
  exact cellsWf_write (a := s.sp.val - 1) 0 (by omega) h

theorem poppedTwo_wf {s : State} (h0 : 2 ≤ s.sp.val) (h : cellsWf stackCap s.S = true) :
    cellsWf stackCap (poppedTwo s).S = true := by
  have := sp_le s
  exact cellsWf_write (a := s.sp.val - 1 - 1) 0 (by omega) (cellsWf_write (a := s.sp.val - 1) 0 (by omega) h)

theorem replacedOne_read (v : Word) (s : State) (i : Nat) :
    cellRead (replacedOne v s).S i = if i = s.sp.val - 1 then v else cellRead s.S i := by
  simp only [replacedOne, State.withStack_S, cellRead_write, poppedOne_read]
  split <;> rfl

theorem replacedTwo_read (v : Word) {s : State} (h : 2 ≤ s.sp.val) (i : Nat) :
    cellRead (replacedTwo v s).S i =
      if i = s.sp.val - 2 then v else if i = s.sp.val - 1 then 0 else cellRead s.S i := by
  simp only [replacedTwo, State.withStack_S, cellRead_write, poppedTwo_read]
  have : s.sp.val - 1 - 1 = s.sp.val - 2 := by omega
  rw [this]
  split
  · rfl
  · simp

end Sys2Proof.Machine
end

