-- ==== Sys2Proof/Laws/Exec.lean ====
section
/-! SUPPORT. What each instruction answers, case by case, and one inversion lemma that says everything an instruction
can do to the state. -/

namespace Sys2Proof.Machine

/-! Case equations, one group per instruction; the arms of `exec` are definitional. -/

theorem exec_halt (s : State) : exec .halt s = .next (haltRun s) := rfl

theorem exec_push_of_full (imm : Word) {s : State} (h : s.sp.val = stackCap) :
    exec (.push imm) s = .next (takeFault .overflow s) := by
  show (push imm s).finish = _
  rw [push_of_full h]; rfl

theorem exec_push_of_room (imm : Word) {s : State} (h : s.sp.val ≠ stackCap) :
    exec (.push imm) s = .next (s.withStack (cellWrite s.S s.sp.val imm) (spUp s.sp h)) := by
  show (push imm s).finish = _
  rw [push_of_room h]; rfl

theorem exec_pushreg_of_invalid {r : RegId} (hr : ¬ r.toNat < numRegs) (s : State) :
    exec (.pushreg r) s = .next (takeFault .invalidRegister s) := by
  show ((regRead r s).andThen _).finish = _
  rw [regRead_of_invalid hr]; rfl

theorem exec_pushreg_of_full {r : RegId} (hr : r.toNat < numRegs) {s : State} (h : s.sp.val = stackCap) :
    exec (.pushreg r) s = .next (takeFault .overflow s) := by
  show ((regRead r s).andThen _).finish = _
  rw [regRead_of_valid hr, Res.andThen_ok, push_of_full h]; rfl

theorem exec_pushreg_of_room {r : RegId} (hr : r.toNat < numRegs) {s : State} (h : s.sp.val ≠ stackCap) :
    exec (.pushreg r) s = .next (s.withStack (cellWrite s.S s.sp.val s.x[r.toNat]) (spUp s.sp h)) := by
  show ((regRead r s).andThen _).finish = _
  rw [regRead_of_valid hr, Res.andThen_ok, push_of_room h]; rfl

theorem exec_mov_of_valid {rd rs : RegId} (hd : rd.toNat < numRegs) (hs : rs.toNat < numRegs) (s : State) :
    exec (.mov rd rs) s = .next (s.withX (s.x.set rd.toNat s.x[rs.toNat])) := by
  show ((regRead rs s).andThen _).finish = _
  rw [regRead_of_valid hs, Res.andThen_ok, regWrite_of_valid hd]; rfl

theorem exec_mov_of_invalid {rd rs : RegId} (h : ¬ (rd.toNat < numRegs ∧ rs.toNat < numRegs)) (s : State) :
    exec (.mov rd rs) s = .next (takeFault .invalidRegister s) := by
  show ((regRead rs s).andThen _).finish = _
  by_cases hs : rs.toNat < numRegs
  · rw [regRead_of_valid hs, Res.andThen_ok, regWrite_of_invalid (fun hd => h ⟨hd, hs⟩)]; rfl
  · rw [regRead_of_invalid hs]; rfl

theorem exec_lea_of_valid {r : RegId} (hr : r.toNat < numRegs) (imm : Word) (s : State) :
    exec (.lea r imm) s = .next (s.withX (s.x.set r.toNat imm)) := by
  show (regWrite r imm s).finish = _
  rw [regWrite_of_valid hr]; rfl

theorem exec_lea_of_invalid {r : RegId} (hr : ¬ r.toNat < numRegs) (imm : Word) (s : State) :
    exec (.lea r imm) s = .next (takeFault .invalidRegister s) := by
  show (regWrite r imm s).finish = _
  rw [regWrite_of_invalid hr]; rfl

theorem exec_pop_of_empty {s : State} (h : s.sp.val = 0) : exec .pop s = .next (takeFault .underflow s) := by
  show ((pop s).andThen _).finish = _
  rw [pop_of_empty h]; rfl

theorem exec_pop_of_pos {s : State} (h : s.sp.val ≠ 0) : exec .pop s = .next (poppedOne s) := by
  show ((pop s).andThen _).finish = _
  rw [pop_of_pos h]; rfl

theorem exec_popreg_of_empty (r : RegId) {s : State} (h : s.sp.val = 0) :
    exec (.popreg r) s = .next (takeFault .underflow s) := by
  show ((pop s).andThen _).finish = _
  rw [pop_of_empty h]; rfl

theorem exec_popreg_of_invalid {r : RegId} (hr : ¬ r.toNat < numRegs) {s : State} (h : s.sp.val ≠ 0) :
    exec (.popreg r) s = .next (takeFault .invalidRegister (poppedOne s)) := by
  show ((pop s).andThen _).finish = _
  rw [pop_of_pos h, Res.andThen_ok, regWrite_of_invalid hr]; rfl

theorem exec_popreg_of_valid {r : RegId} (hr : r.toNat < numRegs) {s : State} (h : s.sp.val ≠ 0) :
    exec (.popreg r) s = .next ((poppedOne s).withX (s.x.set r.toNat (cellRead s.S (s.sp.val - 1)))) := by
  show ((pop s).andThen _).finish = _
  rw [pop_of_pos h, Res.andThen_ok, regWrite_of_valid hr]; rfl

/-- The operation of the binary operators that cannot fault on their operands (42_alu.md R140). -/
def binopFn : Instr → Option (Word → Word → Word)
  | .add => some aluAdd
  | .sub => some aluSub
  | .mul => some aluMul
  | .and => some aluAnd
  | .or => some aluOr
  | .shl => some aluShl
  | .shr => some aluShr
  | .cmp => some equalResult
  | .halt => none
  | .push _ => none
  | .pushreg _ => none
  | .mov _ _ => none
  | .lea _ _ => none
  | .pop => none
  | .popreg _ => none
  | .div => none
  | .not => none
  | .jmp _ => none
  | .jz _ => none
  | .jnz _ => none

theorem exec_binop {i : Instr} {f : Word → Word → Word} (hf : binopFn i = some f) (s : State) :
    exec i s = (binop f s).finish := by
  cases i <;> first | cases hf; rfl | cases hf

theorem exec_binop_of_empty {i : Instr} {f : Word → Word → Word} (hf : binopFn i = some f) {s : State}
    (h : s.sp.val = 0) : exec i s = .next (takeFault .underflow s) := by
  rw [exec_binop hf, binop_of_empty f h]; rfl

theorem exec_binop_of_one {i : Instr} {f : Word → Word → Word} (hf : binopFn i = some f) {s : State}
    (h : s.sp.val = 1) : exec i s = .next (takeFault .underflow (poppedOne s)) := by
  rw [exec_binop hf, binop_of_one f h]; rfl

theorem exec_binop_of_two {i : Instr} {f : Word → Word → Word} (hf : binopFn i = some f) {s : State}
    (h : 2 ≤ s.sp.val) :
    exec i s = .next (replacedTwo (f (cellRead s.S (s.sp.val - 2)) (cellRead s.S (s.sp.val - 1))) s) := by
  rw [exec_binop hf, binop_of_two f h]; rfl

theorem exec_div_of_empty {s : State} (h : s.sp.val = 0) : exec .div s = .next (takeFault .underflow s) := by
  show ((popTwo s).andThen _).finish = _
  rw [popTwo_of_empty h]; rfl

theorem exec_div_of_one {s : State} (h : s.sp.val = 1) :
    exec .div s = .next (takeFault .underflow (poppedOne s)) := by
  show ((popTwo s).andThen _).finish = _
  rw [popTwo_of_one h]; rfl

theorem exec_div_of_zero {s : State} (h : 2 ≤ s.sp.val) (hA : cellRead s.S (s.sp.val - 1) = 0#32) :
    exec .div s = .next (takeFault .divisionByZero (poppedTwo s)) := by
  show ((popTwo s).andThen _).finish = _
  rw [popTwo_of_two h, Res.andThen_ok, if_pos hA]; rfl

theorem exec_div_of_nonzero {s : State} (h : 2 ≤ s.sp.val) (hA : cellRead s.S (s.sp.val - 1) ≠ 0#32) :
    exec .div s =
      .next (replacedTwo (aluDiv (cellRead s.S (s.sp.val - 2)) (cellRead s.S (s.sp.val - 1))) s) := by
  show ((popTwo s).andThen _).finish = _
  rw [popTwo_of_two h, Res.andThen_ok, if_neg hA, push_poppedTwo h]; rfl

theorem exec_not_of_empty {s : State} (h : s.sp.val = 0) : exec .not s = .next (takeFault .underflow s) := by
  show (unop aluNot s).finish = _
  rw [unop_of_empty aluNot h]; rfl

theorem exec_not_of_pos {s : State} (h : s.sp.val ≠ 0) :
    exec .not s = .next (replacedOne (aluNot (cellRead s.S (s.sp.val - 1))) s) := by
  show (unop aluNot s).finish = _
  rw [unop_of_pos aluNot h]; rfl

theorem exec_jmp_of_empty (imm : Word) {s : State} (h : s.sp.val = 0) :
    exec (.jmp imm) s = .next (takeFault .underflow s) := by
  show ((top s).andThen _).finish = _
  rw [top_of_empty h]; rfl

theorem exec_jmp_of_pos (imm : Word) {s : State} (h : s.sp.val ≠ 0) : exec (.jmp imm) s = .next (s.withIp imm) := by
  show ((top s).andThen _).finish = _
  rw [top_of_pos h]; rfl

theorem exec_jz_of_empty (imm : Word) {s : State} (h : s.sp.val = 0) :
    exec (.jz imm) s = .next (takeFault .underflow s) := by
  show ((top s).andThen _).finish = _
  rw [top_of_empty h]; rfl

theorem exec_jz_of_zero (imm : Word) {s : State} (h : s.sp.val ≠ 0) (hv : cellRead s.S (s.sp.val - 1) = 0#32) :
    exec (.jz imm) s = .next (s.withIp imm) := by
  show ((top s).andThen _).finish = _
  rw [top_of_pos h, Res.andThen_ok, hv]; rfl

theorem exec_jz_of_nonzero (imm : Word) {s : State} (h : s.sp.val ≠ 0) (hv : cellRead s.S (s.sp.val - 1) ≠ 0#32) :
    exec (.jz imm) s = .next s := by
  show ((top s).andThen _).finish = _
  rw [top_of_pos h, Res.andThen_ok, show isZero (cellRead s.S (s.sp.val - 1)) = false from decide_eq_false hv]; rfl

theorem exec_jnz_of_empty (imm : Word) {s : State} (h : s.sp.val = 0) :
    exec (.jnz imm) s = .next (takeFault .underflow s) := by
  show ((top s).andThen _).finish = _
  rw [top_of_empty h]; rfl

theorem exec_jnz_of_zero (imm : Word) {s : State} (h : s.sp.val ≠ 0) (hv : cellRead s.S (s.sp.val - 1) = 0#32) :
    exec (.jnz imm) s = .next s := by
  show ((top s).andThen _).finish = _
  rw [top_of_pos h, Res.andThen_ok, hv]; rfl

theorem exec_jnz_of_nonzero (imm : Word) {s : State} (h : s.sp.val ≠ 0) (hv : cellRead s.S (s.sp.val - 1) ≠ 0#32) :
    exec (.jnz imm) s = .next (s.withIp imm) := by
  show ((top s).andThen _).finish = _
  rw [top_of_pos h, Res.andThen_ok, show isNonZero (cellRead s.S (s.sp.val - 1)) = true from decide_eq_true hv]; rfl

/-! Everything an instruction can do. -/

/-- Every instruction answers a next state: a fault of the block is one too (60_exceptions.md R207). -/
theorem exec_next (i : Instr) (s : State) : ∃ t, exec i s = .next t := by
  cases i <;> first | exact ⟨_, rfl⟩ | exact Res.finish_next _

/-- The states an instruction can lead to from `s`, and which instruction leads to each. -/
inductive ExecEffect (i : Instr) (s : State) : State → Prop
  | halts : i = .halt → ExecEffect i s (haltRun s)
  | faults (f : FaultKind) : ExecEffect i s (takeFault f s)
  | faultsAfterOnePop (f : FaultKind) : s.sp.val ≠ 0 →
      (s.sp.val = 1 ∧ f = .underflow ∧ ((∃ op, binopFn i = some op) ∨ i = .div)) ∨
        (f = .invalidRegister ∧ ∃ r, i = .popreg r ∧ ¬ r.toNat < numRegs) →
      ExecEffect i s (takeFault f (poppedOne s))
  | faultsAfterTwoPops : 2 ≤ s.sp.val → i = .div → cellRead s.S (s.sp.val - 1) = 0#32 →
      ExecEffect i s (takeFault .divisionByZero (poppedTwo s))
  | pushes (v : Word) (h : s.sp.val ≠ stackCap) : (∃ imm, i = .push imm) ∨ (∃ r, i = .pushreg r) →
      ExecEffect i s (s.withStack (cellWrite s.S s.sp.val v) (spUp s.sp h))
  | pops : s.sp.val ≠ 0 → i = .pop → ExecEffect i s (poppedOne s)
  | replacesOne (v : Word) : s.sp.val ≠ 0 → i = .not → ExecEffect i s (replacedOne v s)
  | replacesTwo (v : Word) : 2 ≤ s.sp.val → (∃ op, binopFn i = some op) ∨ i = .div → ExecEffect i s (replacedTwo v s)
  | writesRegister (r : RegId) (h : r.toNat < numRegs) (v : Word) : (∃ rs, i = .mov r rs) ∨ i = .lea r v →
      ExecEffect i s (s.withX (s.x.set r.toNat v))
  | popsToRegister (r : RegId) (h : r.toNat < numRegs) (v : Word) : s.sp.val ≠ 0 → i = .popreg r →
      ExecEffect i s ((poppedOne s).withX (s.x.set r.toNat v))
  | jumps (target : Word) : s.sp.val ≠ 0 → i = .jmp target ∨ i = .jz target ∨ i = .jnz target →
      ExecEffect i s (s.withIp target)
  | fallsThrough : s.sp.val ≠ 0 → (∃ target, i = .jz target ∨ i = .jnz target) → ExecEffect i s s

theorem ExecEffect.of_binop {i : Instr} {f : Word → Word → Word} (hf : binopFn i = some f) {s t : State}
    (h : exec i s = .next t) : ExecEffect i s t := by
  by_cases h0 : s.sp.val = 0
  · rw [exec_binop_of_empty hf h0] at h
    cases h; exact .faults _
  · by_cases h1 : s.sp.val = 1
    · rw [exec_binop_of_one hf h1] at h
      cases h; exact .faultsAfterOnePop _ h0 (.inl ⟨h1, rfl, .inl ⟨f, hf⟩⟩)
    · rw [exec_binop_of_two hf (by omega)] at h
      cases h; exact .replacesTwo _ (by omega) (.inl ⟨f, hf⟩)

/-- The inversion lemma of `exec`: if it answers `t`, then `t` is one of `ExecEffect`. -/
theorem exec_effect {i : Instr} {s t : State} (h : exec i s = .next t) : ExecEffect i s t := by
  cases i with
  | halt => cases h; exact .halts rfl
  | push imm =>
    by_cases hf : s.sp.val = stackCap
    · rw [exec_push_of_full imm hf] at h; cases h; exact .faults _
    · rw [exec_push_of_room imm hf] at h; cases h; exact .pushes _ hf (.inl ⟨imm, rfl⟩)
  | pushreg r =>
    by_cases hr : r.toNat < numRegs
    · by_cases hf : s.sp.val = stackCap
      · rw [exec_pushreg_of_full hr hf] at h; cases h; exact .faults _
      · rw [exec_pushreg_of_room hr hf] at h; cases h; exact .pushes _ hf (.inr ⟨r, rfl⟩)
    · rw [exec_pushreg_of_invalid hr] at h; cases h; exact .faults _
  | mov rd rs =>
    by_cases hr : rd.toNat < numRegs ∧ rs.toNat < numRegs
    · rw [exec_mov_of_valid hr.1 hr.2] at h; cases h; exact .writesRegister _ hr.1 _ (.inl ⟨rs, rfl⟩)
    · rw [exec_mov_of_invalid hr] at h; cases h; exact .faults _
  | lea r imm =>
    by_cases hr : r.toNat < numRegs
    · rw [exec_lea_of_valid hr] at h; cases h; exact .writesRegister _ hr _ (.inr rfl)
    · rw [exec_lea_of_invalid hr] at h; cases h; exact .faults _
  | pop =>
    by_cases h0 : s.sp.val = 0
    · rw [exec_pop_of_empty h0] at h; cases h; exact .faults _
    · rw [exec_pop_of_pos h0] at h; cases h; exact .pops h0 rfl
  | popreg r =>
    by_cases h0 : s.sp.val = 0
    · rw [exec_popreg_of_empty r h0] at h; cases h; exact .faults _
    · by_cases hr : r.toNat < numRegs
      · rw [exec_popreg_of_valid hr h0] at h; cases h; exact .popsToRegister _ hr _ h0 rfl
      · rw [exec_popreg_of_invalid hr h0] at h; cases h; exact .faultsAfterOnePop _ h0 (.inr ⟨rfl, r, rfl, hr⟩)
  | add => exact .of_binop rfl h
  | sub => exact .of_binop rfl h
  | mul => exact .of_binop rfl h
  | div =>
    by_cases h0 : s.sp.val = 0
    · rw [exec_div_of_empty h0] at h; cases h; exact .faults _
    · by_cases h1 : s.sp.val = 1
      · rw [exec_div_of_one h1] at h; cases h; exact .faultsAfterOnePop _ h0 (.inl ⟨h1, rfl, .inr rfl⟩)
      · have h2 : 2 ≤ s.sp.val := by omega
        by_cases hA : cellRead s.S (s.sp.val - 1) = 0#32
        · rw [exec_div_of_zero h2 hA] at h; cases h; exact .faultsAfterTwoPops h2 rfl hA
        · rw [exec_div_of_nonzero h2 hA] at h; cases h; exact .replacesTwo _ h2 (.inr rfl)
  | and => exact .of_binop rfl h
  | or => exact .of_binop rfl h
  | not =>
    by_cases h0 : s.sp.val = 0
    · rw [exec_not_of_empty h0] at h; cases h; exact .faults _
    · rw [exec_not_of_pos h0] at h; cases h; exact .replacesOne _ h0 rfl
  | shl => exact .of_binop rfl h
  | shr => exact .of_binop rfl h
  | jmp imm =>
    by_cases h0 : s.sp.val = 0
    · rw [exec_jmp_of_empty imm h0] at h; cases h; exact .faults _
    · rw [exec_jmp_of_pos imm h0] at h; cases h; exact .jumps _ h0 (.inl rfl)
  | jz imm =>
    by_cases h0 : s.sp.val = 0
    · rw [exec_jz_of_empty imm h0] at h; cases h; exact .faults _
    · by_cases hv : cellRead s.S (s.sp.val - 1) = 0#32
      · rw [exec_jz_of_zero imm h0 hv] at h; cases h; exact .jumps _ h0 (.inr (.inl rfl))
      · rw [exec_jz_of_nonzero imm h0 hv] at h; cases h; exact .fallsThrough h0 ⟨imm, .inl rfl⟩
  | jnz imm =>
    by_cases h0 : s.sp.val = 0
    · rw [exec_jnz_of_empty imm h0] at h; cases h; exact .faults _
    · by_cases hv : cellRead s.S (s.sp.val - 1) = 0#32
      · rw [exec_jnz_of_zero imm h0 hv] at h; cases h; exact .fallsThrough h0 ⟨imm, .inr rfl⟩
      · rw [exec_jnz_of_nonzero imm h0 hv] at h; cases h; exact .jumps _ h0 (.inr (.inr rfl))
  | cmp => exact .of_binop rfl h

/-- No instruction touches the program or the configuration (20_memory.md R51). -/
theorem ExecEffect.prog_cfg {i : Instr} {s t : State} (h : ExecEffect i s t) : t.prog = s.prog ∧ t.cfg = s.cfg := by
  cases h <;> exact ⟨rfl, rfl⟩

/-- An instruction keeps the run state, or halts, or faults. -/
theorem ExecEffect.run_cases {i : Instr} {s t : State} (h : ExecEffect i s t) :
    (t.run = s.run ∧ t.fault = s.fault) ∨ (i = .halt ∧ t.run = .halted ∧ t.fault = s.fault) ∨
      (t.run = .faulted ∧ ∃ f, t.fault = some f) := by
  cases h with
  | halts hi => exact .inr (.inl ⟨hi, rfl, rfl⟩)
  | faults f => exact .inr (.inr ⟨rfl, f, rfl⟩)
  | faultsAfterOnePop f _ _ => exact .inr (.inr ⟨rfl, f, rfl⟩)
  | faultsAfterTwoPops _ _ _ => exact .inr (.inr ⟨rfl, .divisionByZero, rfl⟩)
  | _ => exact .inl ⟨rfl, rfl⟩

end Sys2Proof.Machine
end

