-- ==== Sys2Proof/Laws/Memory.lean ====
section
/-! SUPPORT. The laws of program memory: its canonical form, what a loaded program reads as, and what the fetch sees. -/

namespace Sys2Proof.Machine

theorem Memory.wf_iff (m : Memory) : m.wf = true ↔ cellsWf m.len m.cells = true ∧ m.len ≤ maxProgLen := by
  simp [Memory.wf]

/-- The program that reset latches is in canonical form. -/
theorem Memory.wf_ofBytes {bytes : List Byte} (h : bytes.length ≤ maxProgLen) : (Memory.ofBytes bytes).wf = true :=
  (Memory.wf_iff _).2 ⟨cellsWf_ofList bytes, h⟩

/-- Placing bytes inside the address space keeps the canonical form. -/
theorem Memory.wf_place {m : Memory} {a : Nat} {bytes : List Byte} (hm : m.wf = true)
    (h : a + bytes.length ≤ maxProgLen) : (m.place a bytes).wf = true := by
  obtain ⟨hc, hl⟩ := (Memory.wf_iff m).1 hm
  refine (Memory.wf_iff _).2 ⟨?_, max_le hl h⟩
  exact cellsWf_writeList bytes (le_max_right _ _) (cellsWf_mono (le_max_left _ _) hc)

theorem Memory.readByte_of_lt {m : Memory} {a : Nat} (h : a < m.len) : m.readByte a = some (cellRead m.cells a) := by
  simp [Memory.readByte, h]

theorem Memory.readByte_of_le {m : Memory} {a : Nat} (h : m.len ≤ a) : m.readByte a = none := by
  simp [Memory.readByte]; omega

/-- A read of one byte is defined exactly below `PROG_LEN` (R52). -/
theorem Memory.readByte_isSome (m : Memory) (a : Nat) : (m.readByte a).isSome = true ↔ a < m.len := by
  by_cases h : a < m.len <;> simp [Memory.readByte, h]

theorem Memory.lt_len_of_readByte {m : Memory} {a : Nat} {b : Byte} (h : m.readByte a = some b) : a < m.len :=
  (m.readByte_isSome a).1 (by simp [h])

theorem Memory.cellRead_of_readByte {m : Memory} {a : Nat} {b : Byte} (h : m.readByte a = some b) :
    cellRead m.cells a = b := by
  rw [Memory.readByte_of_lt (Memory.lt_len_of_readByte h)] at h
  exact Option.some.inj h

/-- A loaded program reads as the bytes it was loaded from (R50). -/
theorem Memory.readByte_ofBytes (bytes : List Byte) (a : Nat) : (Memory.ofBytes bytes).readByte a = bytes[a]? := by
  have hr := cellRead_ofList 0 bytes a
  rw [Nat.zero_add] at hr
  by_cases h : a < bytes.length
  · rw [Memory.readByte_of_lt h, List.getElem?_eq_getElem h]
    show some (cellRead (cellsOfList 0 bytes) a) = _
    rw [hr, List.getElem?_eq_getElem h]
    rfl
  · rw [Memory.readByte_of_le (by simpa [Memory.ofBytes] using h), List.getElem?_eq_none (by omega)]

/-- What bytes placed in a program read as, and that every other byte reads as before, inside the old length. -/
theorem Memory.readByte_place (m : Memory) (a : Nat) (bytes : List Byte) {b : Nat} (h : a ≤ b)
    (h' : b < a + bytes.length) : (m.place a bytes).readByte b = bytes[b - a]? := by
  have hlt : b < (m.place a bytes).len := lt_of_lt_of_le h' (le_max_right _ _)
  have hi : b - a < bytes.length := by omega
  rw [Memory.readByte_of_lt hlt]
  show some (cellRead (cellsWriteList m.cells a bytes) b) = _
  rw [cellRead_writeList, if_pos ⟨h, h'⟩, List.getElem?_eq_getElem hi]
  rfl

theorem Memory.readByte_place_other (m : Memory) (a : Nat) (bytes : List Byte) {b : Nat} (hb : b < m.len)
    (h : ¬ (a ≤ b ∧ b < a + bytes.length)) : (m.place a bytes).readByte b = m.readByte b := by
  have hlt : b < (m.place a bytes).len := lt_of_lt_of_le hb (le_max_left _ _)
  rw [Memory.readByte_of_lt hlt, Memory.readByte_of_lt hb]
  show some (cellRead (cellsWriteList m.cells a bytes) b) = _
  rw [cellRead_writeList, if_neg h]

/-! The window of bytes a fetch sees. -/

theorem Memory.window_length_le (m : Memory) (a n : Nat) : (m.window a n).length ≤ n := by
  induction n generalizing a with
  | zero => simp [Memory.window]
  | succ n ih =>
    unfold Memory.window
    split
    · simpa using ih (a + 1)
    · simp

theorem Memory.window_length_le_rest (m : Memory) (a n : Nat) : (m.window a n).length ≤ m.len - a := by
  induction n generalizing a with
  | zero => simp [Memory.window]
  | succ n ih =>
    unfold Memory.window
    split
    · have := ih (a + 1)
      simp only [List.length_cons]
      omega
    · simp

theorem Memory.window_getElem? (m : Memory) (a n k : Nat) :
    (m.window a n)[k]? = if k < n then m.readByte (a + k) else none := by
  induction n generalizing a k with
  | zero => simp [Memory.window]
  | succ n ih =>
    unfold Memory.window
    by_cases h : a < m.len
    · rw [if_pos h]
      cases k with
      | zero => simp [Memory.readByte, h]
      | succ k =>
        have hk : a + (k + 1) = a + 1 + k := by omega
        simp [ih, hk]
    · rw [if_neg h, Memory.readByte_of_le (by omega)]
      simp

/-- The window inside the program is not empty: it starts with the byte at its offset. -/
theorem Memory.window_succ_of_lt {m : Memory} {a : Nat} (h : a < m.len) (n : Nat) :
    m.window a (n + 1) = cellRead m.cells a :: m.window (a + 1) n := by
  rw [Memory.window, if_pos h]

/-- A window that holds given bytes at its start is those bytes and a rest. -/
theorem Memory.window_eq_append {m : Memory} {a n : Nat} {bytes : List Byte} (hn : bytes.length ≤ n)
    (h : ∀ k, k < bytes.length → m.readByte (a + k) = bytes[k]?) : ∃ rest, m.window a n = bytes ++ rest := by
  refine ⟨(m.window a n).drop bytes.length, ?_⟩
  have htake : (m.window a n).take bytes.length = bytes := by
    apply List.ext_getElem?
    intro k
    rw [List.getElem?_take]
    split
    · next hk => rw [Memory.window_getElem?, if_pos (by omega), h k hk]
    · next hk => exact (List.getElem?_eq_none (by omega)).symm
  conv_lhs => rw [← List.take_append_drop bytes.length (m.window a n), htake]

/-- A 4-byte read is the four 1-byte reads in little-endian order (R52, R55). -/
theorem Memory.readWord_eq_some {m : Memory} {a : Nat} {v : Word} :
    m.readWord a = some v ↔ ∃ b0 b1 b2 b3, m.readByte a = some b0 ∧ m.readByte (a + 1) = some b1 ∧
      m.readByte (a + 2) = some b2 ∧ m.readByte (a + 3) = some b3 ∧ v = wordOfBytes b0 b1 b2 b3 := by
  constructor
  · intro h
    unfold Memory.readWord at h
    split at h
    · next hl =>
      refine ⟨_, _, _, _, Memory.readByte_of_lt (by omega), Memory.readByte_of_lt (by omega),
        Memory.readByte_of_lt (by omega), Memory.readByte_of_lt (by omega), ?_⟩
      exact (Option.some.inj h).symm
    · exact absurd h (by simp)
  · rintro ⟨b0, b1, b2, b3, h0, h1, h2, h3, rfl⟩
    have hl : a + 3 < m.len := (Memory.readByte_isSome m (a + 3)).1 (by simp [h3])
    rw [Memory.readByte_of_lt (by omega)] at h0 h1 h2 h3
    injection h0 with h0; injection h1 with h1; injection h2 with h2; injection h3 with h3
    subst h0 h1 h2 h3
    rw [Memory.readWord, if_pos (by omega)]
    rfl

/-- Bytes placed for the next fetch keep the canonical form, where they are no longer than the longest instruction. -/
theorem placeProgram_wf {bytes : List Byte} {s : State} (hs : s.prog.wf = true) (hl : bytes.length ≤ maxInstrLen) :
    (placeProgram bytes s).prog.wf = true := by
  refine Memory.wf_place hs ?_
  unfold placeOffset
  split <;> (simp only [maxInstrLen, maxProgLen] at *; omega)

end Sys2Proof.Machine
end

