-- ==== Sys2Proof/Laws/Step.lean ====
section
/-! SUPPORT. What a step can do, said once: the cases of the end-of-program check and of fetch and decode, and the
inversion lemma of the step. -/

namespace Sys2Proof.Machine

/-! Where the instruction pointer is (40_machine_cycle.md R101). -/

theorem ip_toInt_of_nonneg {v : Word} (h : 0 ≤ v.toInt) : v.toInt = (v.toNat : Int) := by
  rw [BitVec.toInt_eq_toNat_cond] at h ⊢
  have := v.isLt
  split at h <;> split <;> omega

theorem endCheck_of_negative {s : State} (h : s.ip.toInt < 0) : endCheck s = some (negativeIp s) := by
  rw [endCheck, if_pos h]

theorem endCheck_of_past_end {s : State} (h0 : 0 ≤ s.ip.toInt) (h : (s.prog.len : Int) ≤ s.ip.toInt) :
    endCheck s = some (haltRun s) := by
  rw [endCheck, if_neg (by omega), if_pos h]

theorem endCheck_of_inside {s : State} (h0 : 0 ≤ s.ip.toInt) (h : s.ip.toInt < (s.prog.len : Int)) :
    endCheck s = none := by
  rw [endCheck, if_neg (by omega), if_neg (by omega)]

/-- Inside the program, `ip` is an offset of it. -/
theorem ip_lt_len {s : State} (h0 : 0 ≤ s.ip.toInt) (h : s.ip.toInt < (s.prog.len : Int)) :
    s.ip.toNat < s.prog.len := by
  rw [ip_toInt_of_nonneg h0] at h
  omega

theorem ip_inside_of_lt {s : State} (h0 : 0 ≤ s.ip.toInt) (h : s.ip.toNat < s.prog.len) :
    s.ip.toInt < (s.prog.len : Int) := by
  rw [ip_toInt_of_nonneg h0]
  omega

/-! Fetch and decode. -/

/-- Inside the program the fetch reads the opcode byte and decodes from there: no read is made outside (R52). -/
theorem fetchDecode_inside {s : State} (h : s.ip.toNat < s.prog.len) :
    fetchDecode s =
      match decode (cellRead s.prog.cells s.ip.toNat) (s.prog.window (s.ip.toNat + 1) 5) with
      | .instr i => .run i (ipAdvance s i.length)
      | .reject e consumed => .done (takeFault (faultOfDecode e) (ipAdvance s (1 + consumed))) := by
  rewrite [fetchDecode, show maxInstrLen = 5 + 1 from rfl, Memory.window_succ_of_lt h]
  rfl

/-! The step. -/

/-- A step outside RUNNING is ignored (R107). -/
theorem step_of_not_running {s : State} (h : s.run ≠ .running) : step s = .next s := by
  cases hr : s.run with
  | running => exact absurd hr h
  | _ => simp [step, fetch, hr]

theorem step_of_running {s : State} (hr : s.run = .running) :
    step s = match endCheck s with
      | some s' => .next s'
      | none =>
        match fetchDecode s with
        | .run i s' => exec i s'
        | .done s' => .next s'
        | .stop f => .fault f := by
  simp only [step, fetch, hr]
  cases endCheck s <;> rfl

theorem step_of_negative {s : State} (hr : s.run = .running) (h : s.ip.toInt < 0) : step s = .next (negativeIp s) := by
  rw [step_of_running hr, endCheck_of_negative h]

theorem step_of_past_end {s : State} (hr : s.run = .running) (h0 : 0 ≤ s.ip.toInt)
    (h : (s.prog.len : Int) ≤ s.ip.toInt) : step s = .next (haltRun s) := by
  rw [step_of_running hr, endCheck_of_past_end h0 h]

/-- A step inside the program, by what its bytes decode to. -/
theorem step_of_inside {s : State} (hr : s.run = .running) (h0 : 0 ≤ s.ip.toInt)
    (h : s.ip.toInt < (s.prog.len : Int)) :
    step s =
      match decode (cellRead s.prog.cells s.ip.toNat) (s.prog.window (s.ip.toNat + 1) 5) with
      | .instr i => exec i (ipAdvance s i.length)
      | .reject e consumed => .next (takeFault (faultOfDecode e) (ipAdvance s (1 + consumed))) := by
  rw [step_of_running hr, endCheck_of_inside h0 h, fetchDecode_inside (ip_lt_len h0 h)]
  cases decode (cellRead s.prog.cells s.ip.toNat) (s.prog.window (s.ip.toNat + 1) 5) <;> rfl

/-- The states a step can lead to from `s`. -/
inductive StepEffect (s : State) : State → Prop
  | ignored : s.run ≠ .running → StepEffect s s
  | negative : s.run = .running → s.ip.toInt < 0 → StepEffect s (negativeIp s)
  | implicitHalt : s.run = .running → 0 ≤ s.ip.toInt → (s.prog.len : Int) ≤ s.ip.toInt → StepEffect s (haltRun s)
  | rejected (e : DecodeError) (consumed : Nat) : s.run = .running → 0 ≤ s.ip.toInt →
      s.ip.toInt < (s.prog.len : Int) →
      decode (cellRead s.prog.cells s.ip.toNat) (s.prog.window (s.ip.toNat + 1) 5) = .reject e consumed →
      StepEffect s (takeFault (faultOfDecode e) (ipAdvance s (1 + consumed)))
  | executed (i : Instr) (t : State) : s.run = .running → 0 ≤ s.ip.toInt → s.ip.toInt < (s.prog.len : Int) →
      decode (cellRead s.prog.cells s.ip.toNat) (s.prog.window (s.ip.toNat + 1) 5) = .instr i →
      exec i (ipAdvance s i.length) = .next t → StepEffect s t

/-- Every step answers a next state, and one of `StepEffect`. -/
theorem step_effect_exists (s : State) : ∃ t, step s = .next t ∧ StepEffect s t := by
  by_cases hr : s.run = .running
  · by_cases hn : s.ip.toInt < 0
    · exact ⟨_, step_of_negative hr hn, .negative hr hn⟩
    · by_cases hp : (s.prog.len : Int) ≤ s.ip.toInt
      · exact ⟨_, step_of_past_end hr (by omega) hp, .implicitHalt hr (by omega) hp⟩
      · have h0 : 0 ≤ s.ip.toInt := by omega
        have h1 : s.ip.toInt < (s.prog.len : Int) := by omega
        rw [step_of_inside hr h0 h1]
        cases hd : decode (cellRead s.prog.cells s.ip.toNat) (s.prog.window (s.ip.toNat + 1) 5) with
        | instr i =>
          obtain ⟨t, ht⟩ := exec_next i (ipAdvance s i.length)
          exact ⟨t, ht, .executed i t hr h0 h1 hd ht⟩
        | reject e consumed => exact ⟨_, rfl, .rejected e consumed hr h0 h1 hd⟩
  · exact ⟨s, step_of_not_running hr, .ignored hr⟩

/-- The inversion lemma of the step: if it answers `t`, then `t` is one of `StepEffect`. -/
theorem step_effect {s t : State} (h : step s = .next t) : StepEffect s t := by
  obtain ⟨t', ht, he⟩ := step_effect_exists s
  rw [ht] at h
  cases h
  exact he

/-- What a fetch at a negative `ip` changes: the run state and the fault code only. -/
theorem negativeIp_cases (s : State) : negativeIp s = takeFault .malformedProgram s ∨ negativeIp s = haltRun s := by
  unfold negativeIp
  cases s.cfg.negIpPolicy <;> simp

/-- No step touches the program or the configuration (20_memory.md R51). -/
theorem StepEffect.prog_cfg {s t : State} (h : StepEffect s t) : t.prog = s.prog ∧ t.cfg = s.cfg := by
  cases h with
  | ignored => exact ⟨rfl, rfl⟩
  | negative => rcases negativeIp_cases s with h | h <;> rw [h] <;> exact ⟨rfl, rfl⟩
  | implicitHalt => exact ⟨rfl, rfl⟩
  | rejected => exact ⟨rfl, rfl⟩
  | executed i t _ _ _ _ ht => exact (exec_effect ht).prog_cfg

end Sys2Proof.Machine
end

