-- ==== Sys2Proof/Laws/FetchWord.lean ====
section
/-! SUPPORT. A program placed for the next fetch is what the next step runs. -/

namespace Sys2Proof.Machine

theorem placeOffset_lt (s : State) : placeOffset s + maxInstrLen ≤ maxProgLen := by
  unfold placeOffset
  split
  · next h => exact h
  · simp [maxInstrLen, maxProgLen]

theorem placeProgram_ip (bytes : List Byte) (s : State) :
    (placeProgram bytes s).ip.toNat = placeOffset s ∧ (placeProgram bytes s).ip.toInt = (placeOffset s : Int) := by
  have hp := placeOffset_lt s
  simp only [maxInstrLen, maxProgLen] at hp
  have hn : (BitVec.ofNat 32 (placeOffset s)).toNat = placeOffset s := by
    rw [BitVec.toNat_ofNat]
    exact Nat.mod_eq_of_lt (by omega)
  refine ⟨hn, ?_⟩
  show (BitVec.ofNat 32 (placeOffset s)).toInt = _
  rw [BitVec.toInt_eq_toNat_cond, hn]
  split <;> omega

/-- The window at the place is the bytes placed. -/
theorem placeProgram_window {bytes : List Byte} (hl : bytes.length = maxInstrLen) (s : State) :
    (placeProgram bytes s).prog.window (placeOffset s) maxInstrLen = bytes := by
  apply List.ext_getElem?
  intro k
  rw [Memory.window_getElem?]
  split
  · next hk =>
    show (s.prog.place (placeOffset s) bytes).readByte (placeOffset s + k) = _
    rw [Memory.readByte_place _ _ _ (by omega) (by omega)]
    congr 1
    omega
  · next hk => exact (List.getElem?_eq_none (by omega)).symm

/-- The very next step runs the instruction that the decoder reads from the row's bits. -/
theorem step_withFetchWord {nbits w : Nat} {i : Instr} (h : decodeTableWord nbits w = some i) (s : State) :
    step (s.withFetchWord nbits w) = exec i (ipAdvance (s.withFetchWord nbits w) i.length) := by
  have hw := placeProgram_window (tableBytes_length nbits w) s
  obtain ⟨hn, hi⟩ := placeProgram_ip (tableBytes nbits w) s
  have hlen : placeOffset s < (placeProgram (tableBytes nbits w) s).prog.len :=
    lt_of_lt_of_le (by rw [tableBytes_length]; simp [maxInstrLen]) (le_max_right _ _)
  have hend : endCheck (s.withFetchWord nbits w) = none :=
    endCheck_of_inside (by show 0 ≤ (placeProgram _ s).ip.toInt; omega)
      (by show (placeProgram _ s).ip.toInt < ((placeProgram _ s).prog.len : Int); omega)
  rw [step_of_running rfl, hend]
  show (match fetchDecode (placeProgram (tableBytes nbits w) s) with
    | .run i s' => exec i s'
    | .done s' => .next s'
    | .stop f => .fault f) = _
  rw [fetchDecode, hn, hw]
  unfold decodeTableWord at h
  split at h
  · exact absurd h (by simp)
  · next op operands htb =>
    split at h
    · next i' hd =>
      cases h
      rewrite [State.withFetchWord, htb]
      simp only [hd]
    · exact absurd h (by simp)

end Sys2Proof.Machine
end

