-- ==== Sys2Proof/Laws/PerInstr.lean ====
section
/-! SUPPORT. Statements made of every instruction as syntax, one lemma per constructor. -/

/-- An instruction's bytes begin with its opcode, are as many as its format's length (30_encoding.md R71, R75), and its
opcode is one of the 20 (R76). -/
def Sys2Proof.Laws.EncodingShape.Statement (i : Sys2Proof.Instr) : Prop :=
  (Sys2Proof.encode i).head? = some i.opcode ∧ (Sys2Proof.encode i).length = i.length ∧ i.opcode.toNat ≤ 19

namespace Sys2Proof.Laws.EncodingShape

theorem halt : Statement .halt := ⟨rfl, rfl, by simp [Instr.opcode]⟩
theorem push (imm : Word) : Statement (.push imm) := ⟨rfl, rfl, by simp [Instr.opcode]⟩
theorem pushreg (r : RegId) : Statement (.pushreg r) := ⟨rfl, rfl, by simp [Instr.opcode]⟩
theorem mov (rd rs : RegId) : Statement (.mov rd rs) := ⟨rfl, rfl, by simp [Instr.opcode]⟩
theorem lea (r : RegId) (imm : Word) : Statement (.lea r imm) := ⟨rfl, rfl, by simp [Instr.opcode]⟩
theorem pop : Statement .pop := ⟨rfl, rfl, by simp [Instr.opcode]⟩
theorem popreg (r : RegId) : Statement (.popreg r) := ⟨rfl, rfl, by simp [Instr.opcode]⟩
theorem add : Statement .add := ⟨rfl, rfl, by simp [Instr.opcode]⟩
theorem sub : Statement .sub := ⟨rfl, rfl, by simp [Instr.opcode]⟩
theorem mul : Statement .mul := ⟨rfl, rfl, by simp [Instr.opcode]⟩
theorem div : Statement .div := ⟨rfl, rfl, by simp [Instr.opcode]⟩
theorem and : Statement .and := ⟨rfl, rfl, by simp [Instr.opcode]⟩
theorem or : Statement .or := ⟨rfl, rfl, by simp [Instr.opcode]⟩
theorem not : Statement .not := ⟨rfl, rfl, by simp [Instr.opcode]⟩
theorem shl : Statement .shl := ⟨rfl, rfl, by simp [Instr.opcode]⟩
theorem shr : Statement .shr := ⟨rfl, rfl, by simp [Instr.opcode]⟩
theorem jmp (imm : Word) : Statement (.jmp imm) := ⟨rfl, rfl, by simp [Instr.opcode]⟩
theorem jz (imm : Word) : Statement (.jz imm) := ⟨rfl, rfl, by simp [Instr.opcode]⟩
theorem jnz (imm : Word) : Statement (.jnz imm) := ⟨rfl, rfl, by simp [Instr.opcode]⟩
theorem cmp : Statement .cmp := ⟨rfl, rfl, by simp [Instr.opcode]⟩

end Sys2Proof.Laws.EncodingShape
end

