-- ==== Sys2Proof/Laws/Program.lean ====
section
/-! SUPPORT. Which part of the program a step depends on: executing an instruction reads none of it (20_memory.md R54),
and fetch and decode read what is defined and nothing else (R52). -/

namespace Sys2Proof.Machine

/-- The answer with another program in its state. -/
def Res.withProg {α : Type} (m : Memory) : Res α → Res α
  | .ok a s => .ok a (s.withProg m)
  | .raised f s => .raised f (s.withProg m)

/-- The program is carried through a sequence of statements that does not read it. -/
theorem Res.andThen_withProg {α β : Type} (m : Memory) (r : Res α) {k : α → State → Res β}
    (hk : ∀ a s, k a (s.withProg m) = (k a s).withProg m) : (r.withProg m).andThen k = (r.andThen k).withProg m := by
  cases r with
  | ok a s => exact hk a s
  | raised f s => rfl

theorem Res.finish_withProg {m : Memory} {r : Res Unit} {t : State} (h : r.finish = .next t) :
    (r.withProg m).finish = .next (t.withProg m) := by
  cases r <;> cases h <;> rfl

theorem regRead_withProg (r : RegId) (s : State) (m : Memory) :
    regRead r (s.withProg m) = (regRead r s).withProg m := by
  unfold regRead; split <;> rfl

theorem regWrite_withProg (r : RegId) (v : Word) (s : State) (m : Memory) :
    regWrite r v (s.withProg m) = (regWrite r v s).withProg m := by
  unfold regWrite; split <;> rfl

theorem push_withProg (v : Word) (s : State) (m : Memory) : push v (s.withProg m) = (push v s).withProg m := by
  by_cases h : s.sp.val = stackCap
  · rw [push_of_full h, push_of_full (s := s.withProg m) h]; rfl
  · rw [push_of_room h, push_of_room (s := s.withProg m) h]; rfl

theorem pop_withProg (s : State) (m : Memory) : pop (s.withProg m) = (pop s).withProg m := by
  by_cases h : s.sp.val = 0
  · rw [pop_of_empty h, pop_of_empty (s := s.withProg m) h]; rfl
  · rw [pop_of_pos h, pop_of_pos (s := s.withProg m) h]; rfl

theorem top_withProg (s : State) (m : Memory) : top (s.withProg m) = (top s).withProg m := by
  by_cases h : s.sp.val = 0
  · rw [top_of_empty h, top_of_empty (s := s.withProg m) h]; rfl
  · rw [top_of_pos h, top_of_pos (s := s.withProg m) h]; rfl

theorem jumpIf_withProg (b : Bool) (v : Word) (s : State) (m : Memory) :
    jumpIf b v (s.withProg m) = (jumpIf b v s).withProg m := by
  cases b <;> rfl

theorem popTwo_withProg (s : State) (m : Memory) : popTwo (s.withProg m) = (popTwo s).withProg m := by
  rw [popTwo, pop_withProg]
  exact Res.andThen_withProg m _ fun A s => by
    rw [pop_withProg]
    exact Res.andThen_withProg m _ fun _ _ => rfl

theorem binop_withProg (f : Word → Word → Word) (s : State) (m : Memory) :
    binop f (s.withProg m) = (binop f s).withProg m := by
  rw [binop, popTwo_withProg]
  exact Res.andThen_withProg m _ fun _ s => push_withProg _ s m

theorem unop_withProg (f : Word → Word) (s : State) (m : Memory) :
    unop f (s.withProg m) = (unop f s).withProg m := by
  rw [unop, pop_withProg]
  exact Res.andThen_withProg m _ fun _ s => push_withProg _ s m

/-- No instruction reads the program: with another program it does the same. -/
theorem exec_withProg (i : Instr) {s t : State} (m : Memory) (h : exec i s = .next t) :
    exec i (s.withProg m) = .next (t.withProg m) := by
  cases hf : binopFn i with
  | some f =>
    rw [exec_binop hf] at h ⊢
    rw [binop_withProg]
    exact Res.finish_withProg h
  | none =>
    cases i with
    | halt => cases h; rfl
    | push imm =>
      show (push imm _).finish = _
      rw [push_withProg]; exact Res.finish_withProg h
    | pushreg r =>
      show ((regRead r _).andThen _).finish = _
      rw [regRead_withProg, Res.andThen_withProg m _ fun v s => push_withProg v s m]
      exact Res.finish_withProg h
    | mov rd rs =>
      show ((regRead rs _).andThen _).finish = _
      rw [regRead_withProg, Res.andThen_withProg m _ fun v s => regWrite_withProg rd v s m]
      exact Res.finish_withProg h
    | lea r imm =>
      show (regWrite r imm _).finish = _
      rw [regWrite_withProg]; exact Res.finish_withProg h
    | pop =>
      show ((pop _).andThen _).finish = _
      rw [pop_withProg, Res.andThen_withProg m _ fun _ _ => rfl]
      exact Res.finish_withProg h
    | popreg r =>
      show ((pop _).andThen _).finish = _
      rw [pop_withProg, Res.andThen_withProg m _ fun v s => regWrite_withProg r v s m]
      exact Res.finish_withProg h
    | div =>
      show ((popTwo _).andThen _).finish = _
      rw [popTwo_withProg, Res.andThen_withProg m _ fun p s => by split <;> first | rfl | exact push_withProg _ s m]
      exact Res.finish_withProg h
    | not =>
      show (unop aluNot _).finish = _
      rw [unop_withProg]; exact Res.finish_withProg h
    | jmp imm =>
      show ((top _).andThen _).finish = _
      rw [top_withProg, Res.andThen_withProg m _ fun _ _ => rfl]
      exact Res.finish_withProg h
    | jz imm =>
      show ((top _).andThen _).finish = _
      rw [top_withProg, Res.andThen_withProg m _ fun v s => jumpIf_withProg (isZero v) imm s m]
      exact Res.finish_withProg h
    | jnz imm =>
      show ((top _).andThen _).finish = _
      rw [top_withProg, Res.andThen_withProg m _ fun v s => jumpIf_withProg (isNonZero v) imm s m]
      exact Res.finish_withProg h
    | _ => cases hf

/-- Memories whose defined reads answer the same show the fetch the same bytes. -/
theorem Memory.window_congr {m m' : Memory} (h : ∀ a, m'.readByte a = m.readByte a) (a n : Nat) :
    m'.window a n = m.window a n :=
  List.ext_getElem? fun k => by rw [Memory.window_getElem?, Memory.window_getElem?, h]

end Sys2Proof.Machine
end

