-- ==== Sys2Proof/Laws/Stack.lean ====
section
/-! SUPPORT. The stack as a list, bottom to top, and what each operation does to it. -/

namespace Sys2Proof.Machine

@[simp] theorem State.stack_length (s : State) : s.stack.length = s.sp.val := by simp [State.stack]

theorem State.stack_getElem? (s : State) (i : Nat) :
    s.stack[i]? = if i < s.sp.val then some (cellRead s.S i) else none := by
  by_cases h : i < s.sp.val <;> simp [State.stack, h]

/-- Stacks are told apart by their pointers and the slots below them. -/
theorem State.stack_ext {s : State} {l : List Word} (hl : l.length = s.sp.val)
    (h : ∀ i, i < s.sp.val → l[i]? = some (cellRead s.S i)) : s.stack = l := by
  apply List.ext_getElem?
  intro i
  rw [State.stack_getElem?]
  split
  · next hi => exact (h i hi).symm
  · next hi => exact (List.getElem?_eq_none (by omega)).symm

theorem State.stack_congr {s t : State} (hsp : t.sp.val = s.sp.val)
    (h : ∀ i, i < s.sp.val → cellRead t.S i = cellRead s.S i) : t.stack = s.stack := by
  refine State.stack_ext (by simp [hsp]) fun i hi => ?_
  rw [hsp] at hi
  rw [State.stack_getElem?, if_pos hi, h i hi]

/-- A stack written with its top entry: the pointer and the slots it stands for. -/
theorem State.stack_snoc {s : State} {st : List Word} {A : Word} (h : s.stack = st ++ [A]) :
    s.sp.val = st.length + 1 ∧ cellRead s.S (s.sp.val - 1) = A := by
  have hl : s.sp.val = st.length + 1 := by
    have := congrArg List.length h
    simpa using this
  refine ⟨hl, ?_⟩
  have hi := State.stack_getElem? s st.length
  rw [h, if_pos (by omega)] at hi
  have : s.sp.val - 1 = st.length := by omega
  rw [this]
  simpa using hi.symm

/-- A stack written with its two top entries (00_scope.md R9). -/
theorem State.stack_snoc2 {s : State} {st : List Word} {B A : Word} (h : s.stack = st ++ [B, A]) :
    s.sp.val = st.length + 2 ∧ cellRead s.S (s.sp.val - 1) = A ∧ cellRead s.S (s.sp.val - 2) = B := by
  have hl : s.sp.val = st.length + 2 := by
    have := congrArg List.length h
    simpa using this
  have hA := State.stack_getElem? s (st.length + 1)
  have hB := State.stack_getElem? s st.length
  rw [h, if_pos (by omega)] at hA hB
  have e1 : s.sp.val - 1 = st.length + 1 := by omega
  have e2 : s.sp.val - 2 = st.length := by omega
  rw [e1, e2]
  exact ⟨hl, by simpa using hA.symm, by simpa using hB.symm⟩

/-- A stack of one entry or more has a top. -/
theorem State.exists_stack_snoc {s : State} (h : s.sp.val ≠ 0) :
    ∃ st, s.stack = st ++ [cellRead s.S (s.sp.val - 1)] := by
  obtain ⟨n, hn⟩ : ∃ n, s.sp.val = n + 1 := ⟨s.sp.val - 1, by omega⟩
  refine ⟨(List.range n).map (cellRead s.S), ?_⟩
  simp [State.stack, hn, List.range_succ]

/-- A push appends its value. -/
theorem stack_of_push {s : State} (h : s.sp.val ≠ stackCap) (v : Word) :
    (s.withStack (cellWrite s.S s.sp.val v) (spUp s.sp h)).stack = s.stack ++ [v] := by
  refine State.stack_ext (by simp) fun i hi => ?_
  simp only [State.withStack_sp, spUp_val, State.withStack_S] at hi ⊢
  rw [cellRead_write]
  by_cases he : i = s.sp.val
  · subst he; simp
  · rw [if_neg he, List.getElem?_append_left (by simp; omega), State.stack_getElem?, if_pos (by omega)]

/-- A pop drops the top. -/
theorem stack_of_poppedOne {s : State} {st : List Word} {A : Word} (h : s.stack = st ++ [A]) :
    (poppedOne s).stack = st := by
  obtain ⟨hl, -⟩ := State.stack_snoc h
  refine State.stack_ext (by simp [hl]) fun i hi => ?_
  simp only [poppedOne_sp, spDown_val] at hi
  have hs := State.stack_getElem? s i
  rw [h, if_pos (by omega), List.getElem?_append_left (by omega)] at hs
  rw [hs, poppedOne_read, if_neg (by omega)]

/-- Two pops drop the two top entries. -/
theorem stack_of_poppedTwo {s : State} {st : List Word} {B A : Word} (h : s.stack = st ++ [B, A]) :
    (poppedTwo s).stack = st := by
  obtain ⟨hl, -, -⟩ := State.stack_snoc2 h
  refine State.stack_ext (by simp [hl]) fun i hi => ?_
  simp only [poppedTwo_sp, spDown_val] at hi
  have hs := State.stack_getElem? s i
  rw [h, if_pos (by omega), List.getElem?_append_left (by omega)] at hs
  rw [hs, poppedTwo_read, if_neg (by omega), if_neg (by omega)]

/-- A binary operator's pops and push replace the two top entries by one. -/
theorem stack_of_replacedTwo {s : State} {st : List Word} {B A : Word} (h : s.stack = st ++ [B, A]) (v : Word) :
    (replacedTwo v s).stack = st ++ [v] := by
  obtain ⟨hl, -, -⟩ := State.stack_snoc2 h
  refine State.stack_ext (by simp [hl]) fun i hi => ?_
  simp only [replacedTwo_sp, spDown_val] at hi
  rw [replacedTwo_read v (by omega)]
  by_cases he : i = s.sp.val - 2
  · rw [if_pos he, List.getElem?_append_right (by omega)]
    have : i - st.length = 0 := by omega
    simp [this]
  · have hs := State.stack_getElem? s i
    rw [h, if_pos (by omega), List.getElem?_append_left (by omega)] at hs
    rw [if_neg he, if_neg (by omega), List.getElem?_append_left (by omega), hs]

/-- A unary operator's pop and push replace the top entry. -/
theorem stack_of_replacedOne {s : State} {st : List Word} {A : Word} (h : s.stack = st ++ [A]) (v : Word) :
    (replacedOne v s).stack = st ++ [v] := by
  obtain ⟨hl, -⟩ := State.stack_snoc h
  refine State.stack_ext (by simp [hl]) fun i hi => ?_
  simp only [replacedOne_sp] at hi
  rw [replacedOne_read]
  by_cases he : i = s.sp.val - 1
  · rw [if_pos he, List.getElem?_append_right (by omega)]
    have : i - st.length = 0 := by omega
    simp [this]
  · have hs := State.stack_getElem? s i
    rw [h, if_pos (by omega), List.getElem?_append_left (by omega)] at hs
    rw [if_neg he, List.getElem?_append_left (by omega), hs]

theorem SameProgram.of_eq {s t : State} (h : t.prog = s.prog) : SameProgram s t := ⟨by rw [h], fun a => by rw [h]⟩

end Sys2Proof.Machine
end

