-- ==== Sys2Proof/Laws/Transactions.lean ====
section
/-! SUPPORT. Sequences of transactions, and the run state that each transaction leaves. -/

namespace Sys2Proof.Machine

@[simp] theorem transact_reset (bytes : List Byte) (s : State) : transact (.reset bytes) s = resetWith bytes s := rfl
@[simp] theorem transact_start (s : State) : transact .start s = .next (startRun s) := rfl
@[simp] theorem transact_step (s : State) : transact .step s = step s := rfl

@[simp] theorem transactAll_nil (s : State) : transactAll [] s = .next s := rfl

theorem transactAll_cons {t : Transaction} {s s' : State} (h : transact t s = .next s') (ts : List Transaction) :
    transactAll (t :: ts) s = transactAll ts s' := by
  rw [transactAll, h]

theorem transactAll_append {ts : List Transaction} {s s' : State} (h : transactAll ts s = .next s')
    (us : List Transaction) : transactAll (ts ++ us) s = transactAll us s' := by
  induction ts generalizing s with
  | nil => cases h; rfl
  | cons t ts ih =>
    rw [transactAll] at h
    cases ht : transact t s with
    | next u =>
      rw [ht] at h
      rw [List.cons_append, transactAll_cons ht]
      exact ih h
    | fault f => rw [ht] at h; cases h
    | refused r => rw [ht] at h; cases h

/-- A start leaves a block that is not IDLE (40_machine_cycle.md R107). -/
theorem startRun_run_ne_idle (s : State) : (startRun s).run ≠ .idle := by
  unfold startRun
  split <;> simp_all

theorem startRun_of_ne_idle {s : State} (h : s.run ≠ .idle) : startRun s = s := by
  unfold startRun
  split <;> simp_all

/-- No instruction makes the block IDLE. -/
theorem ExecEffect.run_ne_idle {i : Instr} {s t : State} (h : ExecEffect i s t) (hs : s.run ≠ .idle) :
    t.run ≠ .idle := by
  cases h <;> first | exact hs | simp

/-- No step makes the block IDLE. -/
theorem StepEffect.run_ne_idle {s t : State} (h : StepEffect s t) (hs : s.run ≠ .idle) : t.run ≠ .idle := by
  cases h with
  | ignored => exact hs
  | negative => rcases negativeIp_cases s with h | h <;> rw [h] <;> simp
  | implicitHalt => simp
  | rejected => simp
  | executed i t _ _ _ _ ht => exact (exec_effect ht).run_ne_idle hs

end Sys2Proof.Machine
end

