-- ==== Sys2Proof/Tests/Slice0.lean ====
section
/-! SUPPORT. Tests: well-formedness, decoding, one step of each instruction, and a witness for the hypotheses of each
obligation that has any. Expected values are those of 30_encoding.md R84 and 95_test_vectors.md, or worked out by hand
from a numbered rule where the comment names one. -/

namespace Sys2Proof.Tests

open Sys2Proof Sys2Proof.Machine

/-! ## Helpers -/

/-- A RUNNING state with a program, a stack (bottom first) and registers. -/
def running (bytes : List Byte) (stack : List Word) (x : Vector Word numRegs) : State :=
  { State.reset with
    x := x, S := cellsOfList 0 stack, sp := Fin.ofNat (stackCap + 1) stack.length, run := .running,
    prog := Memory.ofBytes bytes }

/-- All registers 0. -/
def zeros : Vector Word numRegs := #v[0, 0, 0, 0, 0, 0, 0, 0]

/-- A RUNNING state with a full stack, of which the top entry is `v` and the others are 0. -/
def full (bytes : List Byte) (v : Word) : State :=
  { running bytes [] zeros with S := cellWrite [] 2047 v, sp := 2048 }

/-- A RUNNING state with one free slot. -/
def nearlyFull : State := { running [] [] zeros with S := [(2046, 5)], sp := 2047 }

/-- A FAULTED state. -/
def faulted : State := { running [0x14] [4] zeros with ip := 1, run := .faulted, fault := some .unknownInstruction }

/-- What an answer shows of a next state. -/
def look {α : Type} (f : State → α) (o : Out) : Option α :=
  match o with
  | .next s => some (f s)
  | .fault _ => none
  | .refused _ => none

/-- Run state, fault and stack after a step. -/
def shown (s : State) : RunState × Option FaultKind × List Word := (s.run, s.fault, s.stack)

/-- Run state, fault and registers after a step. -/
def shownRegs (s : State) : RunState × Option FaultKind × Vector Word numRegs := (s.run, s.fault, s.x)

/-! ## Well-formedness: every check refuses an ill-formed term (R72) -/

theorem test_pushreg_8_is_ill_formed : (Instr.pushreg 8).wellFormed = false := by decide
theorem test_mov_destination_8_is_ill_formed : (Instr.mov 8 1).wellFormed = false := by decide
theorem test_mov_source_255_is_ill_formed : (Instr.mov 1 255).wellFormed = false := by decide
theorem test_lea_8_is_ill_formed : (Instr.lea 8 1).wellFormed = false := by decide
theorem test_popreg_9_is_ill_formed : (Instr.popreg 9).wellFormed = false := by decide
theorem test_register_7_is_well_formed :
    (Instr.pushreg 7).wellFormed ∧ (Instr.mov 7 0).wellFormed ∧ (Instr.mov 0 7).wellFormed ∧
      (Instr.lea 7 (-1)).wellFormed ∧ (Instr.popreg 7).wellFormed := by decide

/-! ## Decoding: every constructor from bytes written out from R71 and R76 -/

theorem test_decode_halt : decode 0b00000000 [] = .instr .halt := by decide
/- R84's example. -/
theorem test_decode_push : decode 0b00000001 [0b00001010, 0, 0, 0] = .instr (.push 10) := by decide
theorem test_decode_pushreg : decode 0b00000010 [0b00000011] = .instr (.pushreg 3) := by decide
/- R84's example: destination first. -/
theorem test_decode_mov : decode 0b00000011 [0b00000011, 0b00000001] = .instr (.mov 3 1) := by decide
/- R84's example: byte order. -/
theorem test_decode_lea :
    decode 0b00000100 [0b00000010, 0b01111000, 0b01010110, 0b00110100, 0b00010010] = .instr (.lea 2 0x12345678) := by
  decide
theorem test_decode_pop : decode 0b00000101 [] = .instr .pop := by decide
theorem test_decode_popreg : decode 0b00000110 [0b00000000] = .instr (.popreg 0) := by decide
theorem test_decode_add : decode 0b00000111 [] = .instr .add := by decide
theorem test_decode_sub : decode 0b00001000 [] = .instr .sub := by decide
theorem test_decode_mul : decode 0b00001001 [] = .instr .mul := by decide
theorem test_decode_div : decode 0b00001010 [] = .instr .div := by decide
theorem test_decode_and : decode 0b00001011 [] = .instr .and := by decide
theorem test_decode_or : decode 0b00001100 [] = .instr .or := by decide
theorem test_decode_not : decode 0b00001101 [] = .instr .not := by decide
theorem test_decode_shl : decode 0b00001110 [] = .instr .shl := by decide
theorem test_decode_shr : decode 0b00001111 [] = .instr .shr := by decide
theorem test_decode_jmp : decode 0b00010000 [0xFF, 0xFF, 0xFF, 0x7F] = .instr (.jmp 0x7FFFFFFF) := by decide
theorem test_decode_jz : decode 0b00010001 [0b01100100, 0, 0, 0] = .instr (.jz 100) := by decide
theorem test_decode_jnz : decode 0b00010010 [0b00010001, 0, 0, 0] = .instr (.jnz 17) := by decide
theorem test_decode_cmp : decode 0b00010011 [] = .instr .cmp := by decide

/- R77: the first and the last illegal opcode. -/
theorem test_decode_rejects_illegal_opcodes :
    decode 0x14 [1, 2, 3, 4, 5] = .reject .unknownInstruction 0 ∧
      decode 0xFF [1, 2, 3, 4, 5] = .reject .unknownInstruction 0 := by decide

/- Vectors D-6 to D-9: each operand cut short. -/
theorem test_decode_rejects_short_operands :
    decode 0x01 [0x05, 0x00] = .reject .malformedProgram 0 ∧ decode 0x02 [] = .reject .malformedProgram 0 ∧
      decode 0x03 [0x01] = .reject .malformedProgram 1 ∧ decode 0x04 [0x01, 5, 0, 0] = .reject .malformedProgram 1 := by
  decide

/- The table's numbering: bit 0 is the least significant bit of the first byte. -/
theorem test_decode_table_words :
    decodeTableWord 24 0x010303 = some (.mov 3 1) ∧ decodeTableWord 48 0x123456780204 = some (.lea 2 0x12345678) ∧
      decodeTableWord 8 0x14 = none := by decide

/- R84's example for the encoder. -/
theorem test_encode_push : encode (.push (-2)) = [0x01, 0xFE, 0xFF, 0xFF, 0xFF] := by decide

/- A placed word is the next instruction to run. -/
theorem test_fetch_word_runs :
    look (fun s => (s.x, s.ip)) (step (State.reset.withFetchWord 48 0x123456780204)) =
      some (#v[0, 0, 0x12345678, 0, 0, 0, 0, 0], 6) := by decide

/-! ## One step of each instruction, from its bytes (95_test_vectors.md L2) -/

/- H-2. -/
theorem test_halt : look shown (step (running [0x00, 0x14] [3] zeros)) = some (.halted, none, [3]) := by decide
/- M-1. -/
theorem test_push : look shown (step (running [0x01, 0x00, 0x00, 0x00, 0x80] [] zeros)) =
    some (.running, none, [0x80000000]) := by decide
/- M-3. -/
theorem test_push_full : look (fun s => (s.fault, s.sp, s.S)) (step (full [0x01, 1, 0, 0, 0] 7)) =
    some (some .overflow, 2048, [(2047, 7)]) := by decide
/- M-4. -/
theorem test_pushreg : look shown (step (running [0x02, 0x03] [1] #v[0, 0, 0, -7, 0, 0, 0, 0])) =
    some (.running, none, [1, -7]) := by decide
/- M-8: the register is checked before the stack. -/
theorem test_pushreg_bad_on_full : look (fun s => (s.fault, s.sp)) (step (full [0x02, 0x09] 7)) =
    some (some .invalidRegister, 2048) := by decide
/- M-10: destination first. -/
theorem test_mov : look shownRegs (step (running [0x03, 0x03, 0x01] [] #v[0, 5, 0, 9, 0, 0, 0, 0])) =
    some (.running, none, #v[0, 5, 0, 5, 0, 0, 0, 0]) := by decide
/- M-13. -/
theorem test_mov_bad_source : look shownRegs (step (running [0x03, 0x01, 0x08] [] #v[0, 5, 0, 0, 0, 0, 0, 0])) =
    some (.faulted, some .invalidRegister, #v[0, 5, 0, 0, 0, 0, 0, 0]) := by decide
/- M-16. -/
theorem test_lea : look shownRegs (step (running [0x04, 0x02, 0x78, 0x56, 0x34, 0x12] [] zeros)) =
    some (.running, none, #v[0, 0, 0x12345678, 0, 0, 0, 0, 0]) := by decide
/- M-17. -/
theorem test_lea_bad : look shownRegs (step (running [0x04, 0x08, 1, 0, 0, 0] [] zeros)) =
    some (.faulted, some .invalidRegister, zeros) := by decide
/- M-18: the vacated slot is cleared. -/
theorem test_pop : look (fun s => (shown s, s.S)) (step (running [0x05] [4, 8] zeros)) =
    some ((.running, none, [4]), [(0, 4)]) := by decide
/- M-19. -/
theorem test_pop_empty : look shown (step (running [0x05] [] zeros)) = some (.faulted, some .underflow, []) := by decide
/- M-21. -/
theorem test_popreg : look (fun s => (shown s, s.x)) (step (running [0x06, 0x07] [1, 2] zeros)) =
    some ((.running, none, [1]), #v[0, 0, 0, 0, 0, 0, 0, 2]) := by decide
/- M-22: the value is lost. -/
theorem test_popreg_bad : look (fun s => (shown s, s.x)) (step (running [0x06, 0x09] [5] zeros)) =
    some ((.faulted, some .invalidRegister, []), zeros) := by decide
theorem test_add_wraps : look shown (step (running [0x07] [0x7FFFFFFF, 1] zeros)) =
    some (.running, none, [0x80000000]) := by decide
/- L1.5: the one operand is lost. -/
theorem test_add_one_entry : look shown (step (running [0x07] [1] zeros)) = some (.faulted, some .underflow, []) := by
  decide
theorem test_sub_order : look shown (step (running [0x08] [10, 3] zeros)) = some (.running, none, [7]) := by decide
theorem test_sub_wraps : look shown (step (running [0x08] [0, 0x80000000] zeros)) =
    some (.running, none, [0x80000000]) := by decide
theorem test_mul_signed : look shown (step (running [0x09] [6, -7] zeros)) = some (.running, none, [0xFFFFFFD6]) := by
  decide
theorem test_mul_low_half : look shown (step (running [0x09] [0xFFFF, 0x10001] zeros)) =
    some (.running, none, [0xFFFFFFFF]) := by decide
theorem test_div_truncates : look shown (step (running [0x0A] [-7, 2] zeros)) =
    some (.running, none, [0xFFFFFFFD]) := by decide
/- Both operands are gone, the entry below them stays. -/
theorem test_div_by_zero : look shown (step (running [0x0A] [1, 5, 0] zeros)) =
    some (.faulted, some .divisionByZero, [1]) := by decide
theorem test_and : look shown (step (running [0x0B] [0x0F0F, 0x00FF] zeros)) = some (.running, none, [0x000F]) := by
  decide
theorem test_or : look shown (step (running [0x0C] [0x0F00, 0x00F0] zeros)) = some (.running, none, [0x0FF0]) := by
  decide
theorem test_not : look shown (step (running [0x0D] [9, 5] zeros)) = some (.running, none, [9, 0xFFFFFFFA]) := by decide
/- A full stack is no obstacle. -/
theorem test_not_full : look (fun s => (s.run, s.sp, cellRead s.S 2047)) (step (full [0x0D] 0)) =
    some (.running, 2048, 0xFFFFFFFF) := by decide
theorem test_shl : look shown (step (running [0x0E] [0xDEADBEEF, 8] zeros)) =
    some (.running, none, [0xADBEEF00]) := by decide
theorem test_shl_count_33 : look shown (step (running [0x0E] [5, 33] zeros)) = some (.running, none, [10]) := by decide
theorem test_shr_floors : look shown (step (running [0x0F] [-7, 1] zeros)) =
    some (.running, none, [0xFFFFFFFC]) := by decide
theorem test_shr_count_minus_1 : look shown (step (running [0x0F] [0x80000000, -1] zeros)) =
    some (.running, none, [0xFFFFFFFF]) := by decide
/- J-3. -/
theorem test_jmp : look (fun s => (shown s, s.ip)) (step (running [0x10, 7, 0, 0, 0] [0] zeros)) =
    some ((.running, none, [0]), 7) := by decide
/- L1.10: an empty stack. -/
theorem test_jmp_empty : look shown (step (running [0x10, 5, 0, 0, 0, 0] [] zeros)) =
    some (.faulted, some .underflow, []) := by decide
/- J-4. -/
theorem test_jz_taken : look (fun s => (shown s, s.ip)) (step (running [0x11, 0x64, 0, 0, 0] [0] zeros)) =
    some ((.running, none, [0]), 100) := by decide
/- J-6. -/
theorem test_jz_not_taken : look (fun s => (shown s, s.ip)) (step (running [0x11, 0x64, 0, 0, 0] [0x80000000] zeros)) =
    some ((.running, none, [0x80000000]), 5) := by decide
/- J-11. -/
theorem test_jnz_taken : look (fun s => (shown s, s.ip)) (step (running [0x12, 0x11, 0, 0, 0] [-1] zeros)) =
    some ((.running, none, [-1]), 17) := by decide
/- J-10, at offset 0. -/
theorem test_jnz_not_taken : look (fun s => (shown s, s.ip)) (step (running [0x12, 0x11, 0, 0, 0] [0] zeros)) =
    some ((.running, none, [0]), 5) := by decide
theorem test_cmp_equal : look shown (step (running [0x13] [3, 7, 7] zeros)) = some (.running, none, [3, 1]) := by decide
theorem test_cmp_different : look shown (step (running [0x13] [7, 8] zeros)) = some (.running, none, [0]) := by decide

/-! ## The step without an instruction -/

/- D-2. -/
theorem test_illegal_opcode : look shown (step (running [0x14] [2] zeros)) =
    some (.faulted, some .unknownInstruction, [2]) := by decide
/- D-11: the decode fault comes before the pop. -/
theorem test_missing_operand : look shown (step (running [0x06] [5] zeros)) =
    some (.faulted, some .malformedProgram, [5]) := by decide
/- D-1. -/
theorem test_empty_program_halts : look shown (step (running [] [] zeros)) = some (.halted, none, []) := by decide
/- J-13, under either policy. -/
theorem test_negative_ip :
    look shown (step ((running [0x00] [1] zeros).withIp (-1))) = some (.faulted, some .malformedProgram, [1]) ∧
      look shown (step { running [0x00] [1] zeros with ip := -1, cfg := { negIpPolicy := .halt } }) =
        some (.halted, none, [1]) := by decide
/- H-3. -/
theorem test_step_in_idle : step State.reset = .next State.reset := rfl

/-! ## Witnesses: a concrete state and operands for the hypotheses of each obligation, clause by clause -/

theorem witness_DecodeOfEncodeIsTheInstruction :
    encode (.lea 255 (-1)) ++ [0x14] = 0x04 :: [0xFF, 0xFF, 0xFF, 0xFF, 0xFF, 0x14] := by decide

theorem witness_DecodedBytesAreTheEncoding : decode 0x12 [0xFF, 0xFF, 0xFF, 0xFF, 0x14] = .instr (.jnz (-1)) := by
  decide

theorem witness_OpcodesFrom20AreUnknownInstructions :
    20 ≤ (20 : Byte).toNat ∧ 20 ≤ (255 : Byte).toNat ∧ (19 : Byte).toNat ≤ 19 ∧
      ((running [20] [] zeros).run = .running ∧ 0 ≤ (running [20] [] zeros).ip.toInt ∧
        (running [20] [] zeros).prog.readByte (running [20] [] zeros).ip.toNat = some 20) := by decide

theorem witness_TruncatedOperandsRaiseMalformedProgram :
    let s := running [0x04, 1, 5, 0, 0] [] zeros
    s.run = .running ∧ 0 ≤ s.ip.toInt ∧ s.prog.readByte s.ip.toNat = some (Instr.lea 1 5).opcode ∧
      s.prog.len < s.ip.toNat + (Instr.lea 1 5).length := by decide

theorem witness_StepRunsTheDecodedInstruction :
    let s := running [0x04, 7, 0, 0, 0, 0x80] [] zeros
    s.run = .running ∧ 0 ≤ s.ip.toInt ∧
      ∀ k, k < (Instr.lea 7 0x80000000).length →
        s.prog.readByte (s.ip.toNat + k) = (encode (.lea 7 0x80000000))[k]? := by decide

theorem witness_ImmediatesAreLittleEndianProgramReads_word :
    let s := fun op => running [op, 0x78, 0x56, 0x34, 0x12] [0] zeros
    ∀ op ∈ ([0x01, 0x10, 0x11, 0x12] : List Byte), (s op).run = .running ∧ 0 ≤ (s op).ip.toInt ∧
      (s op).prog.readWord ((s op).ip.toNat + 1) = some 0x12345678 ∧
      (s op).prog.readByte (s op).ip.toNat = some op := by decide

theorem witness_ImmediatesAreLittleEndianProgramReads_lea :
    let s := running [0x04, 7, 0x78, 0x56, 0x34, 0x12] [] zeros
    s.run = .running ∧ 0 ≤ s.ip.toInt ∧ s.prog.readByte (s.ip.toNat + 1) = some 7 ∧
      s.prog.readWord (s.ip.toNat + 2) = some 0x12345678 ∧ s.prog.readByte s.ip.toNat = some 0x04 := by decide

theorem witness_StepOutsideTheProgramEndsTheRun_end :
    let s := (running [0x00] [] zeros).withIp 1
    s.run = .running ∧ 0 ≤ s.ip.toInt ∧ (s.prog.len : Int) ≤ s.ip.toInt := by decide

theorem witness_StepOutsideTheProgramEndsTheRun_fault :
    let s := (running [0x00] [] zeros).withIp (-1)
    s.run = .running ∧ s.ip.toInt < 0 ∧ s.cfg.negIpPolicy = .fault := by decide

theorem witness_StepOutsideTheProgramEndsTheRun_halt :
    let s : State := { running [0x00] [] zeros with ip := 0x80000000, cfg := { negIpPolicy := .halt } }
    s.run = .running ∧ s.ip.toInt < 0 ∧ s.cfg.negIpPolicy = .halt := by decide

/-- A state in the middle of a run that meets the invariant, its stack and registers in use. -/
theorem running_meets_inv : (running [0x08] [10, 3] #v[1, 2, 3, 4, 5, 6, 7, 8]).Inv where
  prog := by decide
  storage := by decide
  tail := fun i hi =>
    match i, (hi : 2 ≤ i) with
    | _ + 2, _ => rfl
  fault := by decide

theorem witness_StepKeepsTheInvariant :
    let s := running [0x08] [10, 3] #v[1, 2, 3, 4, 5, 6, 7, 8]
    s.Inv ∧ ∃ t, step s = .next t ∧ t.stack = [7] := ⟨running_meets_inv, _, rfl, by decide⟩

theorem witness_ResetMeetsTheInvariant :
    ∃ t, transact (.reset [0x08, 0x00]) faulted = .next t ∧ t.prog.len = 2 := ⟨_, rfl, by decide⟩

theorem witness_EveryReachableStateMeetsTheInvariant :
    let s := running [0x08] [10, 3] #v[1, 2, 3, 4, 5, 6, 7, 8]
    s.Inv ∧ ∃ t, transactAll [.step, .step, .reset [0x05], .start] s = .next t ∧ t.run = .running :=
  ⟨running_meets_inv, _, rfl, by decide⟩

theorem witness_ProgramChangesOnlyByReset :
    (∃ t, transact .step (running [0x05] [1] zeros) = .next t ∧ t.sp = 0) ∧
      (∃ t, transact .start State.reset = .next t ∧ t.run = .running) ∧
      (∃ t, transact (.reset [0x05]) (running [0x00, 0x00] [1] zeros) = .next t ∧ t.prog.len = 1) :=
  ⟨⟨_, rfl, by decide⟩, ⟨_, rfl, by decide⟩, ⟨_, rfl, by decide⟩⟩

theorem witness_RunStateMoves :
    State.reset.run = .idle ∧ (running [] [] zeros).run ≠ .idle ∧ State.reset.run ≠ .running ∧
      (∃ t, transact .step (running [0x00] [] zeros) = .next t ∧ t.run = .halted) ∧
      (∃ t, transact .step (running [0x14] [] zeros) = .next t ∧ t.run = .faulted) ∧
      (∃ t, transact .step (running [0x05] [1] zeros) = .next t ∧ t.run = .running) :=
  ⟨by decide, by decide, by decide, ⟨_, rfl, by decide⟩, ⟨_, rfl, by decide⟩, ⟨_, rfl, by decide⟩⟩

theorem witness_FaultedRunsAreFinal : faulted.run = .faulted ∧ ([0x00] : List Byte).length ≤ maxProgLen := by decide

theorem witness_ResetLeavesTheResetState_accepted : ([0x00] : List Byte).length ≤ maxProgLen := by decide

theorem witness_ResetLeavesTheResetState_refused : maxProgLen < (List.replicate (maxProgLen + 1) (0 : Byte)).length := by
  rw [List.length_replicate]; decide

theorem witness_StartChangesOnlyTheRunState : State.reset.run = .idle ∧ faulted.run ≠ .idle := by decide

theorem witness_JumpToItselfNeverEnds :
    let s := (running [0x01, 1, 0, 0, 0, 0x10, 5, 0, 0, 0] [1] zeros).withIp 5
    s.run = .running ∧ 0 ≤ s.ip.toInt ∧ 0 < s.sp.val ∧
      ∀ k, k < 5 → s.prog.readByte (s.ip.toNat + k) = (encode (.jmp s.ip))[k]? := by decide

theorem witness_AdvancingNeverPassesTheEnd :
    let s := running [0x05] [1] zeros
    s.prog.len ≤ maxProgLen ∧ s.run = .running ∧ ∃ t, step s = .next t ∧ t.run = .running ∧ t.ip.toNat = s.prog.len :=
  ⟨by decide, by decide, _, rfl, by decide, by decide⟩

theorem witness_NextIpIsTheTargetOrTheSequentialOne :
    let s := running [] [0] zeros
    s.run = .running ∧ (∃ t, exec (.jz 100) s = .next t ∧ t.run = .running) ∧
      ∃ t, exec .pop s = .next t ∧ t.run = .running :=
  ⟨by decide, ⟨_, rfl, by decide⟩, _, rfl, by decide⟩

theorem witness_ExecuteIsStartThenStepsAndEndedRunsStay :
    faulted.run ≠ .running ∧
      ∃ t, execute 2 { running [0x05, 0x00] [1] zeros with run := .idle } = .next t ∧ t.run ≠ .running :=
  ⟨by decide, _, rfl, by decide⟩

/-- Two memories that differ only past the end of the program, where no read is defined. -/
theorem witness_MemReadIsBoundedAndLittleEndian_outside :
    let s := running [0x05] [1] zeros
    let m : Memory := { cells := [(0, 5), (1, 9)], len := 1 }
    m.len = s.prog.len ∧ (∀ a, m.readByte a = s.prog.readByte a) ∧ m ≠ s.prog ∧
      ∃ t, step s = .next t ∧ t.stack = [] := by
  refine ⟨by decide, fun a => ?_, by decide, _, rfl, by decide⟩
  match a with
  | 0 => decide
  | a + 1 => rw [Memory.readByte_of_le (by simp), Memory.readByte_of_le (by simp [running, Memory.ofBytes])]

theorem witness_MemReadIsBoundedAndLittleEndian :
    (Memory.ofBytes [0x78, 0x56, 0x34, 0x12]).readWord 0 = some 0x12345678 ∧
      (Memory.ofBytes [0x78, 0x56, 0x34, 0x12]).readWord 1 = none ∧
      (Memory.ofBytes [0x78, 0x56, 0x34, 0x12]).readByte 3 = some 0x12 ∧
      (Memory.ofBytes [0x78, 0x56, 0x34, 0x12]).readByte 4 = none := by decide

/-- Identifiers on either side of the bound: 7 names a register, 8 and 255 do not (R22, R23). -/
theorem witness_register_identifiers :
    8 ≤ (8 : RegId).toNat ∧ 8 ≤ (255 : RegId).toNat ∧ (7 : RegId).toNat = (7 : Fin numRegs).val ∧
      (0 : RegId).toNat = (0 : Fin numRegs).val ∧ (7 : RegId).toNat < 8 := by decide

/-- Stack depths on either side of each bound: empty, one entry, one free slot, full (R26, R27). -/
theorem witness_stack_depths :
    (running [] [] zeros).sp.val = 0 ∧ (running [] [] zeros).sp.val < 2 ∧ (running [] [6] zeros).sp.val < 2 ∧
      (running [] [6] zeros).sp.val ≠ 0 ∧ 0 < (running [] [6] zeros).sp.val ∧ nearlyFull.sp.val < 2048 ∧
      nearlyFull.sp.val ≠ 2048 ∧ (full [] 6).sp.val = 2048 := by decide

/-- Stacks of each shape a statement names: a top, two operands with and without entries below, a zero top, a non-zero
one, equal and different operands, a zero divisor. -/
theorem witness_stack_shapes :
    (running [] [6] zeros).stack = [] ++ [6] ∧ (running [] [1, 0] zeros).stack = [1] ++ [0] ∧
      (running [] [0x80000000] zeros).stack = [] ++ [0x80000000] ∧ (0x80000000 : Word) ≠ 0 ∧
      (running [] [1, 9, -1] zeros).stack = [1] ++ [9, -1] ∧ (-1 : Word) ≠ 0 ∧ (9 : Word) ≠ -1 ∧
      (running [] [7, 7] zeros).stack = [] ++ [7, 7] ∧ (running [] [1, 5, 0] zeros).stack = [1] ++ [5, 0] := by decide

theorem witness_RegisterFileAccess : 8 ≤ (8 : RegId).toNat ∧ (7 : RegId).toNat = (7 : Fin numRegs).val := by decide
theorem witness_PushOperation : (full [] 6).sp.val = 2048 ∧ nearlyFull.sp.val ≠ 2048 := by decide
theorem witness_PopOperation : (running [] [] zeros).sp.val = 0 ∧ (running [] [6] zeros).sp.val ≠ 0 := by decide
theorem witness_TopOperation : (running [] [] zeros).sp.val = 0 ∧ (running [] [6] zeros).stack = [] ++ [6] := by decide

theorem witness_RegistersAreReachedByRegisterInstructionsOnly :
    let s := running [] [1, 6] zeros
    (7 : RegId).toNat = (7 : Fin numRegs).val ∧ s.sp.val < 2048 ∧ s.stack = [1] ++ [6] ∧
      (∃ t, exec .add s = .next t ∧ t.stack = [7]) ∧ (∃ t, exec (.popreg 7) s = .next t ∧ t.stack = [1]) ∧
      (∀ r, Instr.add ≠ .popreg r) ∧ (∀ rd rs, Instr.add ≠ .mov rd rs) ∧ (∀ r imm, Instr.add ≠ .lea r imm) ∧
      (∀ r, Instr.popreg 7 ≠ .pushreg r) ∧ (∀ rd rs, Instr.popreg 7 ≠ .mov rd rs) :=
  ⟨by decide, by decide, by decide, ⟨_, rfl, by decide⟩, ⟨_, rfl, by decide⟩, nofun, nofun, nofun, nofun, nofun⟩

theorem witness_EntriesBelowTheOperandsStay :
    let s := running [] [1, 9, 0] zeros
    0 + minDepth .div < s.sp.val ∧ ∃ t, exec .div s = .next t ∧ t.fault = some .divisionByZero :=
  ⟨by decide, _, rfl, by decide⟩

theorem witness_AccessorsShowTheState :
    2047 < 2048 ∧ 8 ≤ (8 : RegId).toNat ∧ (7 : RegId).toNat = (7 : Fin numRegs).val ∧ State.reset.run = .idle ∧
      (running [] [] zeros).run = .running ∧ (haltRun (running [] [] zeros)).run = .halted ∧ faulted.run = .faulted ∧
      ∀ f : FaultKind, (takeFault f (running [] [] zeros)).fault = some f :=
  ⟨by decide, by decide, by decide, by decide, by decide, by decide, by decide, fun _ => rfl⟩

theorem witness_PushPushesItsImmediate :
    ([1, 0, 0] : List Byte).length < 4 ∧ nearlyFull.sp.val < 2048 ∧ (full [] 6).sp.val = 2048 := by decide

theorem witness_PushregPushesTheRegister :
    (7 : RegId).toNat = (7 : Fin numRegs).val ∧ nearlyFull.sp.val < 2048 ∧ 8 ≤ (8 : RegId).toNat ∧
      (7 : RegId).toNat < 8 ∧ (full [] 6).sp.val = 2048 := by decide

theorem witness_MovCopiesTheSourceRegister :
    ([3] : List Byte).length < 2 ∧ (7 : RegId).toNat = (7 : Fin numRegs).val ∧
      (0 : RegId).toNat = (0 : Fin numRegs).val ∧ 8 ≤ (8 : RegId).toNat := by decide

theorem witness_LeaWritesItsImmediate :
    ([1, 5, 0, 0] : List Byte).length < 5 ∧ (7 : RegId).toNat = (7 : Fin numRegs).val ∧ 8 ≤ (8 : RegId).toNat := by
  decide

theorem witness_PopDiscardsTheTop :
    (running [] [6] zeros).stack = [] ++ [6] ∧ (running [] [] zeros).sp.val = 0 := by decide

theorem witness_PopregPopsIntoTheRegister :
    (7 : RegId).toNat = (7 : Fin numRegs).val ∧ (running [] [6] zeros).stack = [] ++ [6] ∧
      (running [] [] zeros).sp.val = 0 ∧ 8 ≤ (8 : RegId).toNat := by decide

/-- For the seven two-operand operators that fault on Underflow only (ADD, SUB, MUL, AND, OR, SHL, SHR). -/
theorem witness_two_operand_operators :
    (running [] [1, 9, -1] zeros).stack = [1] ++ [9, -1] ∧ (running [] [6] zeros).sp.val < 2 ∧
      (running [] [] zeros).sp.val < 2 := by decide

theorem witness_DivPushesTheTruncatedQuotient :
    (running [] [1, 9, -1] zeros).stack = [1] ++ [9, -1] ∧ (-1 : Word) ≠ 0 ∧
      (running [] [1, 5, 0] zeros).stack = [1] ++ [5, 0] ∧ (running [] [6] zeros).sp.val < 2 := by decide

theorem witness_NotPushesTheComplement :
    (running [] [6] zeros).stack = [] ++ [6] ∧ 31 < 32 ∧ (running [] [] zeros).sp.val = 0 := by decide

theorem witness_JmpWritesItsTarget :
    ([1, 0, 0] : List Byte).length < 4 ∧ 0 < (running [] [0] zeros).sp.val ∧ (running [] [] zeros).sp.val = 0 := by
  decide

/-- For JZ and for JNZ. -/
theorem witness_conditional_jumps :
    ([1, 0, 0] : List Byte).length < 4 ∧ (running [] [1, 0] zeros).stack = [1] ++ [0] ∧
      (running [] [0x80000000] zeros).stack = [] ++ [0x80000000] ∧ (0x80000000 : Word) ≠ 0 ∧
      (running [] [] zeros).sp.val = 0 := by decide

theorem witness_CmpPushesEquality :
    (running [] [7, 7] zeros).stack = [] ++ [7, 7] ∧ (running [] [7, 8] zeros).stack = [] ++ [7, 8] ∧
      (7 : Word) ≠ 8 ∧ (running [] [3] zeros).sp.val < 2 := by decide

/-- One pair of operands for each of the four operators; the sum and the product are at an end of the range. -/
theorem witness_ArithmeticIsExactWhereItFits :
    (running [] [0x7FFFFFFE, 1] zeros).stack = [] ++ [0x7FFFFFFE, 1] ∧
      (2 ^ 31 - 1 : Int) = (0x7FFFFFFE : Word).toInt + (1 : Word).toInt ∧
      (running [] [0x40000000, -2] zeros).stack = [] ++ [0x40000000, -2] ∧
      (-2 ^ 31 : Int) = (0x40000000 : Word).toInt * (-2 : Word).toInt ∧
      (running [] [10, 3] zeros).stack = [] ++ [10, 3] ∧ (7 : Int) = (10 : Word).toInt - (3 : Word).toInt ∧
      (3 : Word) ≠ 0 ∧ (3 : Int) = Int.tdiv (10 : Word).toInt (3 : Word).toInt := by decide

theorem witness_AluResultsInTheirBitPatternForms :
    (running [] [1, 9, 33] zeros).stack = [1] ++ [9, 33] ∧ 31 + 33 % 32 = 32 ∧ 30 + 33 % 32 < 32 := by decide

theorem witness_UnderflowExactlyBelowTheMinimumDepth :
    (running [] [6] zeros).fault = none ∧
      (∃ t, exec .add (running [] [6] zeros) = .next t ∧ t.fault = some .underflow) ∧
      (∃ t, exec .not (running [] [6] zeros) = .next t ∧ t.fault = none) :=
  ⟨by decide, ⟨_, rfl, by decide⟩, ⟨_, rfl, by decide⟩⟩

theorem witness_OverflowOnlyByPushesOnAFullStack :
    (full [] 6).fault = none ∧ (∃ t, exec (.push 1) (full [] 6) = .next t ∧ t.fault = some .overflow) ∧
      (full [] 6).sp.val = 2048 ∧ (7 : RegId).toNat < 8 := ⟨by decide, ⟨_, rfl, by decide⟩, by decide, by decide⟩

theorem witness_InvalidRegisterExactlyForBadIdentifiers :
    8 ≤ (8 : RegId).toNat ∧ 0 < (running [] [6] zeros).sp.val ∧ (Instr.popreg 7).wellFormed = true ∧
      (running [] [6] zeros).fault = none ∧ ∃ t, exec (.popreg 7) (running [] [6] zeros) = .next t ∧ t.fault = none :=
  ⟨by decide, by decide, by decide, by decide, _, rfl, by decide⟩

theorem witness_DivisionByZeroExactlyForZeroDivisors :
    (running [] [5, 0] zeros).fault = none ∧
      (∃ t, exec .div (running [] [5, 0] zeros) = .next t ∧ t.fault = some .divisionByZero) ∧
      ∃ t, exec .div (running [] [0] zeros) = .next t ∧ t.fault = some .underflow :=
  ⟨by decide, ⟨_, rfl, by decide⟩, _, rfl, by decide⟩

theorem witness_InstructionsRaiseTheFirstFaultOfTheirRow :
    (full [] 6).run = .running ∧ (full [] 6).fault = none ∧
      (∃ t, exec (.pushreg 8) (full [] 6) = .next t ∧ t.fault = some .invalidRegister) ∧
      (∃ t, exec .not (full [] 6) = .next t ∧ t.fault = none) :=
  ⟨by decide, by decide, ⟨_, rfl, by decide⟩, ⟨_, rfl, by decide⟩⟩

theorem witness_FaultsLeaveOnlyPopsBehind :
    minDepth .add = 2 ∧ minDepth .div = 2 ∧ (running [] [6] zeros).sp.val = 1 ∧ (running [] [6] zeros).run = .running ∧
      (∃ t, exec .add (running [] [6] zeros) = .next t ∧ t.run = .faulted) ∧
      (2 ≤ (running [] [5, 0] zeros).sp.val ∧ ∃ t, exec .div (running [] [5, 0] zeros) = .next t ∧ t.run = .faulted) ∧
      (∃ t, exec (.popreg 8) (running [] [6] zeros) = .next t ∧ t.run = .faulted) :=
  ⟨by decide, by decide, by decide, by decide, ⟨_, rfl, by decide⟩, ⟨by decide, _, rfl, by decide⟩, ⟨_, rfl, by decide⟩⟩

/-- The other cases: a stack too short, a POPREG of an empty stack, a full stack. -/
theorem witness_FaultsLeaveOnlyPopsBehind_kept :
    ¬ (minDepth .add = 2 ∧ (running [] [] zeros).sp.val = 1) ∧ ¬ (Instr.add = .div ∧ 2 ≤ (running [] [] zeros).sp.val) ∧
      (∀ r, Instr.add = .popreg r → (running [] [] zeros).sp.val = 0) ∧
      (∃ t, exec .add (running [] [] zeros) = .next t ∧ t.run = .faulted) ∧
      (∃ t, exec (.popreg 8) (running [] [] zeros) = .next t ∧ t.run = .faulted) ∧
      (∃ t, exec (.push 1) (full [] 6) = .next t ∧ t.run = .faulted) :=
  ⟨by decide, by decide, nofun, ⟨_, rfl, by decide⟩, ⟨_, rfl, by decide⟩, ⟨_, rfl, by decide⟩⟩

end Sys2Proof.Tests
end

section
/-! PROOFS. The register file, the stack operations and reset (10_state.md R21 to R28, R40): the statements of the
state's family. -/

namespace Sys2Proof.Machine

/-! Frames of the field updates. -/

/-- Another stack is a change of the stack only. -/
theorem OnlyStackChanges.withStack (s : State) (S : List (Nat × Word)) (sp : Fin (stackCap + 1)) :
    OnlyStackChanges s (s.withStack S sp) :=
  ⟨rfl, rfl, rfl, rfl, rfl, .of_eq rfl⟩

/-- A write to the register file at `r` changes register `r` only. -/
theorem OnlyRegisterChanges.withX_set {r : RegId} (hr : r.toNat < numRegs) (v : Word) (s : State) :
    OnlyRegisterChanges r s (s.withX (s.x.set r.toNat v)) where
  others _ hk := Vector.getElem_set_ne hr _ hk.symm
  S := rfl
  sp := rfl
  ip := rfl
  run := rfl
  fault := rfl
  cfg := rfl
  prog := .of_eq rfl

/-! What a reset leaves. -/

/-- The state that a reset with `bytes` leaves (R40). -/
def resetState (bytes : List Byte) (cfg : Config) : State :=
  { State.reset with prog := Memory.ofBytes bytes, cfg := cfg }

theorem resetWith_of_le {bytes : List Byte} (h : bytes.length ≤ maxProgLen) (s : State) :
    resetWith bytes s = .next (resetState bytes s.cfg) := by
  rw [resetWith, if_pos h]; rfl

theorem resetWith_of_lt {bytes : List Byte} (h : maxProgLen < bytes.length) (s : State) :
    resetWith bytes s = .refused .programTooLong := by
  rw [resetWith, if_neg (by omega)]

theorem resetState_register (bytes : List Byte) (cfg : Config) (k : Fin numRegs) : (resetState bytes cfg).x[k] = 0 :=
  Vector.getElem_replicate k.isLt

/-- Settles O17: an accepted reset answers `resetState`, whose program reads as the bytes supplied. -/
theorem resetLeavesTheResetState : Obligations.ResetLeavesTheResetState := by
  intro bytes s
  exact ⟨fun h => ⟨_, resetWith_of_le h s, resetState_register bytes s.cfg, rfl, cellRead_nil, rfl, rfl, rfl, rfl,
    Memory.readByte_ofBytes bytes, rfl⟩, fun h => resetWith_of_lt h s⟩

/-! The accesses to the register file and to the stack. -/

/-- Settles O25, by the two cases of each access: an identifier below 8 and one from 8 on. -/
theorem registerFileAccess : Obligations.RegisterFileAccess := by
  intro r v s
  refine ⟨fun h => ?_, fun k hk => ?_⟩
  · have hr : ¬ r.toNat < numRegs := Nat.not_lt.2 h
    exact ⟨regRead_of_invalid hr s, regWrite_of_invalid hr v s⟩
  · have hr : r.toNat < numRegs := hk ▸ k.isLt
    obtain rfl : k = ⟨r.toNat, hr⟩ := Fin.ext hk.symm
    exact ⟨regRead_of_valid hr s, _, regWrite_of_valid hr v s, Vector.getElem_set_self hr, .withX_set hr v s⟩

/-- Settles O26, by a full stack and one with room. -/
theorem pushOperation : Obligations.PushOperation := by
  intro v s
  exact ⟨fun h => push_of_full h v, fun h => ⟨_, push_of_room h v, rfl, cellRead_write_same _ _ v,
    fun _ hi => cellRead_write_other _ v hi, .withStack ..⟩⟩

/-- Settles O27, by an empty stack and one with a top. -/
theorem popOperation : Obligations.PopOperation := by
  intro s
  exact ⟨pop_of_empty, fun h => ⟨_, pop_of_pos h, rfl, cellRead_write_same _ _ 0,
    fun _ hi => cellRead_write_other _ 0 hi, .withStack ..⟩⟩

/-- Settles O28, by an empty stack and one with a top. -/
theorem topOperation : Obligations.TopOperation := by
  intro s
  refine ⟨top_of_empty, fun st A h => ?_⟩
  obtain ⟨hsp, hA⟩ := State.stack_snoc h
  rw [top_of_pos (by omega), hA]

/-! Which instructions write a register. -/

/-- Only POPREG, MOV and LEA write a register (R21). -/
theorem ExecEffect.x_eq {i : Instr} {s t : State} (h : ExecEffect i s t) (hpopreg : ∀ r, i ≠ .popreg r)
    (hmov : ∀ rd rs, i ≠ .mov rd rs) (hlea : ∀ r imm, i ≠ .lea r imm) : t.x = s.x := by
  cases h with
  | writesRegister r _ v hi =>
    obtain ⟨rs, hi⟩ | hi := hi
    · exact absurd hi (hmov r rs)
    · exact absurd hi (hlea r v)
  | popsToRegister r _ _ _ hi => exact absurd hi (hpopreg r)
  | _ => rfl

/-! Operations that neither read nor write the register file: with other registers they do the same and carry those
registers along. The property goes through a sequence of statements. -/

/-- The answer with another register file in its state. -/
def Res.withX {α : Type} (x : Vector Word numRegs) : Res α → Res α
  | .ok a s => .ok a (s.withX x)
  | .raised f s => .raised f (s.withX x)

/-- With another register file the operation answers the same, that file in its state. -/
def IgnoresRegisters {α : Type} (op : State → Res α) : Prop :=
  ∀ (s : State) (x : Vector Word numRegs), op (s.withX x) = (op s).withX x

namespace IgnoresRegisters

theorem ok {α : Type} (a : α) : IgnoresRegisters (Res.ok a) := fun _ _ => rfl

theorem raised {α : Type} (f : FaultKind) : IgnoresRegisters (Res.raised f : State → Res α) := fun _ _ => rfl

theorem andThen {α β : Type} {op : State → Res α} {k : α → State → Res β} (h : IgnoresRegisters op)
    (hk : ∀ a, IgnoresRegisters (k a)) : IgnoresRegisters fun s => (op s).andThen k := by
  intro s x
  show (op (s.withX x)).andThen k = ((op s).andThen k).withX x
  rw [h]
  cases op s with
  | ok a s => exact hk a s x
  | raised f s => rfl

theorem push (v : Word) : IgnoresRegisters (push v) := by
  intro s x
  by_cases h : s.sp.val = stackCap
  · rw [push_of_full h, push_of_full (s := s.withX x) h]; rfl
  · rw [push_of_room h, push_of_room (s := s.withX x) h]; rfl

theorem pop : IgnoresRegisters pop := by
  intro s x
  by_cases h : s.sp.val = 0
  · rw [pop_of_empty h, pop_of_empty (s := s.withX x) h]; rfl
  · rw [pop_of_pos h, pop_of_pos (s := s.withX x) h]; rfl

theorem top : IgnoresRegisters top := by
  intro s x
  by_cases h : s.sp.val = 0
  · rw [top_of_empty h, top_of_empty (s := s.withX x) h]; rfl
  · rw [top_of_pos h, top_of_pos (s := s.withX x) h]; rfl

theorem jumpTo (target : Word) : IgnoresRegisters (jumpTo target) := fun _ _ => rfl

theorem jumpIf (taken : Bool) (target : Word) : IgnoresRegisters (jumpIf taken target) := by
  cases taken
  · exact ok ()
  · exact jumpTo target

theorem popTwo : IgnoresRegisters popTwo := pop.andThen fun _ => pop.andThen fun _ => ok _

theorem binop (f : Word → Word → Word) : IgnoresRegisters (binop f) := popTwo.andThen fun _ => push _

theorem unop (f : Word → Word) : IgnoresRegisters (unop f) := pop.andThen fun _ => push _

/-- An instruction made of such statements does the same with other registers. -/
theorem finish {op : State → Res Unit} (h : IgnoresRegisters op) {s t : State} (ht : (op s).finish = .next t)
    (x : Vector Word numRegs) : (op (s.withX x)).finish = .next (t.withX x) := by
  rw [h]
  cases hop : op s <;> rw [hop] at ht <;> cases ht <;> rfl

end IgnoresRegisters

/-- An instruction without a register operand does the same with other registers, and carries them along. -/
theorem exec_withX_of_no_register {i : Instr} {s t : State} (h : exec i s = .next t) (hpushreg : ∀ r, i ≠ .pushreg r)
    (hmov : ∀ rd rs, i ≠ .mov rd rs) (hlea : ∀ r imm, i ≠ .lea r imm) (hpopreg : ∀ r, i ≠ .popreg r)
    (x : Vector Word numRegs) : exec i (s.withX x) = .next (t.withX x) := by
  cases hf : binopFn i with
  | some f =>
    rw [exec_binop hf] at h ⊢
    exact (IgnoresRegisters.binop f).finish h x
  | none =>
    cases i with
    | halt => cases h; rfl
    | push imm => exact (IgnoresRegisters.push imm).finish h x
    | pushreg r => exact absurd rfl (hpushreg r)
    | mov rd rs => exact absurd rfl (hmov rd rs)
    | lea r imm => exact absurd rfl (hlea r imm)
    | pop => exact (IgnoresRegisters.pop.andThen fun _ => .ok ()).finish h x
    | popreg r => exact absurd rfl (hpopreg r)
    | div =>
      refine (IgnoresRegisters.popTwo.andThen fun p => ?_).finish h x
      by_cases hA : p.1 = 0#32
      · simpa only [if_pos hA] using IgnoresRegisters.raised _
      · simpa only [if_neg hA] using IgnoresRegisters.push _
    | not => exact (IgnoresRegisters.unop aluNot).finish h x
    | jmp imm => exact (IgnoresRegisters.top.andThen fun _ => .jumpTo imm).finish h x
    | jz imm => exact (IgnoresRegisters.top.andThen fun v => .jumpIf (isZero v) imm).finish h x
    | jnz imm => exact (IgnoresRegisters.top.andThen fun v => .jumpIf (isNonZero v) imm).finish h x
    | _ => cases hf

/-! The instructions that write a register without reading one: two runs that differ in their registers end with each
register as it was in its own run, or with the same value in both. -/

/-- From register files `x` and `x'` to `y` and `y'`: each register is kept on both sides, or ends the same. -/
def KeptOrAgree (x y x' y' : Vector Word numRegs) : Prop :=
  ∀ k : Fin numRegs, (y[k] = x[k] ∧ y'[k] = x'[k]) ∨ y'[k] = y[k]

theorem KeptOrAgree.kept {x y : Vector Word numRegs} (h : y = x) (x' : Vector Word numRegs) :
    KeptOrAgree x y x' x' := fun _ => .inl ⟨by rw [h], rfl⟩

/-- The same write on both sides: the register written agrees, the others are kept. -/
theorem KeptOrAgree.set {n : Nat} (hn : n < numRegs) (v : Word) (x x' : Vector Word numRegs) :
    KeptOrAgree x (x.set n v) x' (x'.set n v) := by
  intro k
  by_cases hk : n = k.val
  · subst hk
    exact .inr ((Vector.getElem_set_self hn).trans (Vector.getElem_set_self hn).symm)
  · exact .inl ⟨Vector.getElem_set_ne _ _ hk, Vector.getElem_set_ne _ _ hk⟩

/-- A register write does the same to everything but the registers, whatever they hold. -/
theorem finish_regWrite_withX {r : RegId} {v : Word} {s t : State} (h : (regWrite r v s).finish = .next t)
    (x : Vector Word numRegs) :
    ∃ y, (regWrite r v (s.withX x)).finish = .next (t.withX y) ∧ KeptOrAgree s.x t.x x y := by
  by_cases hr : r.toNat < numRegs
  · rw [regWrite_of_valid hr] at h ⊢
    cases h
    exact ⟨_, rfl, .set hr v s.x x⟩
  · rw [regWrite_of_invalid hr] at h ⊢
    cases h
    exact ⟨_, rfl, .kept rfl x⟩

/-- POPREG on a stack with a top is a register write after the pop (R125). -/
theorem exec_popreg_eq_regWrite (r : RegId) {s : State} (h : s.sp.val ≠ 0) :
    exec (.popreg r) s = (regWrite r (cellRead s.S (s.sp.val - 1)) (poppedOne s)).finish := by
  show ((pop s).andThen _).finish = _
  rw [pop_of_pos h]; rfl

/-- An instruction other than PUSHREG and MOV reads no register: with other registers it does the same to the rest of
the state (R21). -/
theorem exec_withX {i : Instr} {s t : State} (h : exec i s = .next t) (hpushreg : ∀ r, i ≠ .pushreg r)
    (hmov : ∀ rd rs, i ≠ .mov rd rs) (x : Vector Word numRegs) :
    ∃ y, exec i (s.withX x) = .next (t.withX y) ∧ KeptOrAgree s.x t.x x y := by
  cases i with
  | pushreg r => exact absurd rfl (hpushreg r)
  | mov rd rs => exact absurd rfl (hmov rd rs)
  | lea r imm => exact finish_regWrite_withX h x
  | popreg r =>
    by_cases h0 : s.sp.val = 0
    · rw [exec_popreg_of_empty r h0] at h
      cases h
      exact ⟨x, exec_popreg_of_empty r (s := s.withX x) h0, .kept rfl x⟩
    · rw [exec_popreg_eq_regWrite r h0] at h
      rw [exec_popreg_eq_regWrite r (s := s.withX x) h0]
      exact finish_regWrite_withX h x
  | _ =>
    refine ⟨x, exec_withX_of_no_register h hpushreg hmov ?_ ?_ x, .kept ((exec_effect h).x_eq ?_ hmov ?_) x⟩ <;>
      nofun

/-! Every register is reached by the register instructions. -/

theorem pushreg_pushes_register {r : RegId} (hr : r.toNat < numRegs) {s : State} (h : s.sp.val < stackCap) :
    ∃ t, exec (.pushreg r) s = .next t ∧ t.stack = s.stack ++ [s.x[r.toNat]] :=
  ⟨_, exec_pushreg_of_room hr (Nat.ne_of_lt h), stack_of_push _ _⟩

theorem mov_writes_source {rd rs : RegId} (hd : rd.toNat < numRegs) (hs : rs.toNat < numRegs) (s : State) :
    ∃ t, exec (.mov rd rs) s = .next t ∧ t.x[rd.toNat] = s.x[rs.toNat] :=
  ⟨_, exec_mov_of_valid hd hs s, Vector.getElem_set_self hd⟩

theorem lea_writes_immediate {r : RegId} (hr : r.toNat < numRegs) (v : Word) (s : State) :
    ∃ t, exec (.lea r v) s = .next t ∧ t.x[r.toNat] = v :=
  ⟨_, exec_lea_of_valid hr v s, Vector.getElem_set_self hr⟩

theorem popreg_writes_top {r : RegId} (hr : r.toNat < numRegs) {s : State} {st : List Word} {A : Word}
    (h : s.stack = st ++ [A]) : ∃ t, exec (.popreg r) s = .next t ∧ t.x[r.toNat] = A := by
  obtain ⟨hsp, hA⟩ := State.stack_snoc h
  exact ⟨_, exec_popreg_of_valid hr (by omega), (Vector.getElem_set_self hr).trans hA⟩

/-- Settles O29: the register instructions reach every register, `ExecEffect.x_eq` says that no other instruction
writes one, and `exec_withX` that none but PUSHREG and MOV reads one. -/
theorem registersAreReachedByRegisterInstructionsOnly :
    Obligations.RegistersAreReachedByRegisterInstructionsOnly := by
  refine ⟨fun r k s hk => ?_, fun i s t h => (exec_effect h).x_eq, fun i s t x h hpushreg hmov => ?_⟩
  · have hr : r.toNat < numRegs := hk ▸ k.isLt
    obtain rfl : k = ⟨r.toNat, hr⟩ := Fin.ext hk.symm
    refine ⟨pushreg_pushes_register hr, fun rd d hd => ?_, fun v => lea_writes_immediate hr v s,
      fun st A => popreg_writes_top hr⟩
    have hrd : rd.toNat < numRegs := hd ▸ d.isLt
    obtain rfl : d = ⟨rd.toNat, hrd⟩ := Fin.ext hd.symm
    exact mov_writes_source hrd hr s
  · obtain ⟨y, hy, hk⟩ := exec_withX h hpushreg hmov x
    exact ⟨_, hy, rfl, rfl, rfl, rfl, rfl, .of_eq rfl, fun _ => rfl, hk⟩

end Sys2Proof.Machine
end

section
/-! PROOFS. Program memory (20_memory.md R50, R51): the statements of the memory's family. -/

namespace Sys2Proof.Machine

/-- A start keeps the program (R51). -/
theorem startRun_prog (s : State) : (startRun s).prog = s.prog := by
  unfold startRun
  split <;> rfl

/-- An accepted reset latches exactly the bytes supplied (R50). -/
theorem resetWith_prog {bytes : List Byte} {s t : State} (h : resetWith bytes s = .next t) :
    t.prog = Memory.ofBytes bytes := by
  obtain hlt | hle := Nat.lt_or_ge maxProgLen bytes.length
  · rw [resetWith_of_lt hlt] at h
    cases h
  · rw [resetWith_of_le hle] at h
    cases h
    rfl

/-- Settles O14: no effect of a step and no start changes `prog`, and a reset's program reads as the bytes supplied. -/
theorem programChangesOnlyByReset : Obligations.ProgramChangesOnlyByReset := by
  refine ⟨fun s t h => ?_, fun s t h => ?_, fun bytes s t h => ?_⟩
  · obtain ⟨hprog, _⟩ := (step_effect h).prog_cfg
    exact .of_eq hprog
  · cases h
    exact .of_eq (startRun_prog s)
  · rw [resetWith_prog h]
    exact ⟨rfl, Memory.readByte_ofBytes bytes⟩

end Sys2Proof.Machine
end

section
/-! PROOFS. The opcode map and the decoder (30_encoding.md R76, R77, R84): the statements of the encoding's family. -/

namespace Sys2Proof

/-! What an opcode byte decides. -/

/-- The opcode map holds every row of R76: the converse of `opcodeRow_entry`. -/
theorem OpcodeEntry.opcodeRow_eq {op : Byte} {row : OpcodeRow} (h : OpcodeEntry op row) : opcodeRow op = some row := by
  cases h <;> rfl

/-- The opcode of a row leaves the operands to the row's format (R78). -/
theorem OpcodeEntry.decode_eq {op : Byte} {row : OpcodeRow} (h : OpcodeEntry op row) (operands : List Byte) :
    decode op operands = decodeOperands row operands := by
  rw [decode, h.opcodeRow_eq]

/-- The decoder answers unknown instruction exactly for an illegal opcode byte, whatever follows it, and has then read
no operand byte (R77, R78). -/
theorem decode_eq_unknown_iff (op : Byte) (operands : List Byte) (n : Nat) :
    decode op operands = .reject .unknownInstruction n ↔ 20 ≤ op.toNat ∧ n = 0 := by
  rw [← opcodeRow_eq_none]
  cases hrow : opcodeRow op with
  | none => simp [decode, hrow, eq_comm]
  | some row =>
    have hne : decodeOperands row operands ≠ .reject .unknownInstruction n := fun h =>
      nomatch decodeOperands_reject h
    simp [decode, hrow, hne]

end Sys2Proof

namespace Sys2Proof.Machine

/-! A step whose fetch or decode is rejected. -/

/-- A fault of fetch or decode changes the run state, the fault code and `ip` only (R207). -/
theorem FaultsWithStackKept.takeFault_ipAdvance (f : FaultKind) (s : State) (n : Nat) :
    FaultsWithStackKept f s (takeFault f (ipAdvance s n)) :=
  ⟨⟨rfl, rfl, rfl, rfl, .of_eq rfl⟩, rfl, rfl⟩

/-- A step that fetches an opcode byte whose decode is rejected faults as the decoder says (R80). -/
theorem step_of_reject {s : State} {op : Byte} {e : DecodeError} {n : Nat} (hr : s.run = .running)
    (h0 : 0 ≤ s.ip.toInt) (hop : s.prog.readByte s.ip.toNat = some op)
    (hd : decode op (s.prog.window (s.ip.toNat + 1) 5) = .reject e n) :
    step s = .next (takeFault (faultOfDecode e) (ipAdvance s (1 + n))) := by
  have hin : s.ip.toInt < (s.prog.len : Int) := ip_inside_of_lt h0 (Memory.lt_len_of_readByte hop)
  rw [step_of_inside hr h0 hin, Memory.cellRead_of_readByte hop, hd]

/-- Settles O5: `decode_eq_unknown_iff` says which bytes are unknown instructions, and `step_of_reject` what the step
does with one. -/
theorem opcodesFrom20AreUnknownInstructions : Obligations.OpcodesFrom20AreUnknownInstructions := by
  refine ⟨fun op operands h => (decode_eq_unknown_iff op operands 0).2 ⟨h, rfl⟩, fun op operands n hle hd => ?_,
    fun s op hr h0 hop h => ?_⟩
  · have h := ((decode_eq_unknown_iff op operands n).1 hd).1
    omega
  · exact ⟨_, step_of_reject hr h0 hop ((decode_eq_unknown_iff op _ 0).2 ⟨h, rfl⟩), .takeFault_ipAdvance ..⟩

/-! The rows of the opcode map and the spec's examples: each opcode has its row, and the row's format reads the
operands. -/

/-- Settles O3, by the row of each opcode. -/
theorem specExampleEncodingsDecode : Obligations.SpecExampleEncodingsDecode :=
  ⟨OpcodeEntry.add.decode_eq _, OpcodeEntry.popreg.decode_eq _, OpcodeEntry.mov.decode_eq _,
    OpcodeEntry.push.decode_eq _, OpcodeEntry.push.decode_eq _, OpcodeEntry.jnz.decode_eq _,
    OpcodeEntry.lea.decode_eq _⟩

/-- Settles O4, by the row of each opcode; the lengths are those of the formats (R75). -/
theorem opcodeMapHasItsTwentyRows : Obligations.OpcodeMapHasItsTwentyRows := by
  intro rest r rd rs b0 b1 b2 b3 imm
  exact ⟨⟨OpcodeEntry.halt.decode_eq _, rfl⟩, ⟨OpcodeEntry.push.decode_eq _, rfl⟩,
    ⟨OpcodeEntry.pushreg.decode_eq _, rfl⟩, ⟨OpcodeEntry.mov.decode_eq _, rfl⟩,
    ⟨OpcodeEntry.lea.decode_eq _, rfl⟩, ⟨OpcodeEntry.pop.decode_eq _, rfl⟩,
    ⟨OpcodeEntry.popreg.decode_eq _, rfl⟩, ⟨OpcodeEntry.add.decode_eq _, rfl⟩,
    ⟨OpcodeEntry.sub.decode_eq _, rfl⟩, ⟨OpcodeEntry.mul.decode_eq _, rfl⟩,
    ⟨OpcodeEntry.div.decode_eq _, rfl⟩, ⟨OpcodeEntry.and.decode_eq _, rfl⟩,
    ⟨OpcodeEntry.or.decode_eq _, rfl⟩, ⟨OpcodeEntry.not.decode_eq _, rfl⟩,
    ⟨OpcodeEntry.shl.decode_eq _, rfl⟩, ⟨OpcodeEntry.shr.decode_eq _, rfl⟩,
    ⟨OpcodeEntry.jmp.decode_eq _, rfl⟩, ⟨OpcodeEntry.jz.decode_eq _, rfl⟩,
    ⟨OpcodeEntry.jnz.decode_eq _, rfl⟩, ⟨OpcodeEntry.cmp.decode_eq _, rfl⟩⟩

end Sys2Proof.Machine
end

section
/-! PROOFS. The empty program (40_machine_cycle.md R110): reset leaves `ip` at 0, which is already past its end. -/

namespace Sys2Proof.Machine

theorem startRun_of_idle {s : State} (h : s.run = .idle) : startRun s = s.withRun .running s.fault := by
  rw [startRun, h]

/-- The state that a reset and a start leave is RUNNING and otherwise the reset state (R40, R232). -/
theorem transactAll_reset_start {bytes : List Byte} (h : bytes.length ≤ maxProgLen) (s : State) :
    transactAll [.reset bytes, .start] s = .next ((resetState bytes s.cfg).withRun .running none) := by
  rw [transactAll_cons ((transact_reset bytes s).trans (resetWith_of_le h s)), transactAll_cons (transact_start _),
    startRun_of_idle rfl]
  rfl

/-- With the empty program the first step is an implicit halt: `ip` and `PROG_LEN` are both 0 (R101). -/
theorem step_resetState_empty (cfg : Config) :
    step ((resetState [] cfg).withRun .running none) = .next (haltRun ((resetState [] cfg).withRun .running none)) :=
  step_of_past_end rfl (Int.le_refl 0) (Int.le_refl 0)

/-- Settles O19: the step after reset and start is the implicit halt, which keeps what the reset left. -/
theorem emptyProgramHaltsAtItsFirstStep : Obligations.EmptyProgramHaltsAtItsFirstStep := by
  intro s
  refine ⟨haltRun ((resetState [] s.cfg).withRun .running none), ?_, rfl, rfl, resetState_register [] s.cfg, rfl,
    cellRead_nil⟩
  calc transactAll ([.reset [], .start] ++ [.step]) s
    _ = transactAll [.step] ((resetState [] s.cfg).withRun .running none) :=
        transactAll_append (transactAll_reset_start (Nat.zero_le _) s) _
    _ = _ := transactAll_cons ((transact_step _).trans (step_resetState_empty s.cfg)) []

end Sys2Proof.Machine
end

section
/-! PROOFS. PUSH and LEA (41_data_movement.md R120, R123): the statements of the data movement family. -/

namespace Sys2Proof

/-! Operand decode of a truncated instruction (R79). -/

/-- Format FI with fewer bytes than the immediate's four is malformed, no operand byte read. -/
theorem decodeOperands_fi_of_short (mk : Word → Instr) {bytes : List Byte} (h : bytes.length < 4) :
    decodeOperands (.fi mk) bytes = .reject .malformedProgram 0 := by
  rw [decodeOperands, (readImm_eq_none bytes).2 h]

/-- Format FRI with fewer than five bytes is malformed: the register byte is missing, or is read and the immediate is
short. -/
theorem decodeOperands_fri_of_short (mk : RegId → Word → Instr) {bytes : List Byte} (h : bytes.length < 5) :
    ∃ n, decodeOperands (.fri mk) bytes = .reject .malformedProgram n := by
  cases bytes with
  | nil => exact ⟨0, rfl⟩
  | cons r rest =>
    have hrest : readImm rest = none := (readImm_eq_none rest).2 (Nat.lt_of_succ_lt_succ h)
    exact ⟨1, by simp only [decodeOperands, readReg_cons, hrest]⟩

end Sys2Proof

namespace Sys2Proof.Machine

/-- A fault of an instruction that has changed nothing yet keeps the stack (R207). -/
theorem FaultsWithStackKept.takeFault (f : FaultKind) (s : State) : FaultsWithStackKept f s (takeFault f s) :=
  ⟨⟨rfl, rfl, rfl, rfl, .of_eq rfl⟩, rfl, rfl⟩

/-- Settles O33: the decoder by the row of opcode 0x01, and the execution by a stack with room and a full one. -/
theorem pushPushesItsImmediate : Obligations.PushPushesItsImmediate := by
  refine ⟨fun b0 b1 b2 b3 rest => OpcodeEntry.push.decode_eq _, fun bytes h => ?_,
    fun imm s => ⟨fun h => ?_, fun h => ?_⟩⟩
  · exact ⟨0, (OpcodeEntry.push.decode_eq bytes).trans (decodeOperands_fi_of_short _ h)⟩
  · have hroom : s.sp.val ≠ stackCap := Nat.ne_of_lt h
    exact ⟨_, exec_push_of_room imm hroom, stack_of_push hroom imm, .withStack ..⟩
  · exact ⟨_, exec_push_of_full imm h, .takeFault ..⟩

/-- Settles O36: the decoder by the row of opcode 0x04, and the execution by an identifier below 8 and one from 8 on,
both whatever the stack holds. -/
theorem leaWritesItsImmediate : Obligations.LeaWritesItsImmediate := by
  refine ⟨fun r b0 b1 b2 b3 rest => OpcodeEntry.lea.decode_eq _, fun bytes h => ?_,
    fun r imm s => ⟨fun k hk => ?_, fun h => ?_⟩⟩
  · rw [OpcodeEntry.lea.decode_eq bytes]
    exact decodeOperands_fri_of_short _ h
  · have hr : r.toNat < numRegs := hk ▸ k.isLt
    obtain rfl : k = ⟨r.toNat, hr⟩ := Fin.ext hk.symm
    exact ⟨_, exec_lea_of_valid hr imm s, Vector.getElem_set_self hr, .withX_set hr imm s⟩
  · exact ⟨_, exec_lea_of_invalid (Nat.not_lt.2 h) imm s, .takeFault ..⟩

end Sys2Proof.Machine
end

section
/-! PROOFS. AND and OR (42_alu.md R140, R145, R146): the statements of the ALU's family. Decode and execution are proved
once for every binary operator of `binopFn`; AND and OR add what their result is bit by bit. -/

namespace Sys2Proof.Machine

/-- A fault after one pop, as after none, leaves registers, configuration and program (R207). -/
theorem EntersFault.takeFault_poppedOne (f : FaultKind) (s : State) : EntersFault f s (takeFault f (poppedOne s)) :=
  ⟨rfl, rfl, rfl, rfl, .of_eq rfl⟩

/-- A binary operator with both operands on the stack replaces them by its result and changes nothing else (R140). -/
theorem exec_binop_of_stack {i : Instr} {f : Word → Word → Word} (hf : binopFn i = some f) {s : State}
    {st : List Word} {B A : Word} (h : s.stack = st ++ [B, A]) :
    ∃ t, exec i s = .next t ∧ t.stack = st ++ [f B A] ∧ OnlyStackChanges s t := by
  obtain ⟨hsp, hB, hA⟩ := State.stack_snoc2 h
  have h2 : 2 ≤ s.sp.val := by omega
  refine ⟨replacedTwo (f B A) s, ?_, stack_of_replacedTwo h _, .withStack ..⟩
  rw [exec_binop_of_two hf h2, hB, hA]

/-- A binary operator with fewer than two entries faults with Underflow, after no pop or after one (R204). -/
theorem exec_binop_of_lt_two {i : Instr} {f : Word → Word → Word} (hf : binopFn i = some f) {s : State}
    (h : s.sp.val < 2) : ∃ t, exec i s = .next t ∧ EntersFault .underflow s t := by
  by_cases h0 : s.sp.val = 0
  · exact ⟨_, exec_binop_of_empty hf h0, (FaultsWithStackKept.takeFault ..).enters⟩
  · have h1 : s.sp.val = 1 := by omega
    exact ⟨_, exec_binop_of_one hf h1, .takeFault_poppedOne ..⟩

/-- Settles O43: the decoder by the row of opcode 0x0B, and the execution by that of a binary operator. -/
theorem andPushesTheBitwiseAnd : Obligations.AndPushesTheBitwiseAnd := by
  refine ⟨OpcodeEntry.and.decode_eq, fun s => ⟨fun st B A h => ?_, exec_binop_of_lt_two rfl⟩⟩
  obtain ⟨t, ht, hstack, hframe⟩ := exec_binop_of_stack (i := .and) rfl h
  exact ⟨t, aluAnd B A, ht, hstack, fun _ => BitVec.getLsbD_and, hframe⟩

/-- Settles O44: the decoder by the row of opcode 0x0C, and the execution by that of a binary operator. -/
theorem orPushesTheBitwiseOr : Obligations.OrPushesTheBitwiseOr := by
  refine ⟨OpcodeEntry.or.decode_eq, fun s => ⟨fun st B A h => ?_, exec_binop_of_lt_two rfl⟩⟩
  obtain ⟨t, ht, hstack, hframe⟩ := exec_binop_of_stack (i := .or) rfl h
  exact ⟨t, aluOr B A, ht, hstack, fun _ => BitVec.getLsbD_or, hframe⟩

end Sys2Proof.Machine
end

section
/-! PROOFS. JZ and JNZ (43_control_flow.md R171, R172): the statements of the control flow family. Both decode alike and
only peek at the top, so a next state is either the same state or the one with the target in `ip`. -/

namespace Sys2Proof

/-- An opcode of format FI followed by fewer than four bytes is malformed (R79). -/
theorem OpcodeEntry.decode_fi_of_short {op : Byte} {mk : Word → Instr} (h : OpcodeEntry op (.fi mk)) {bytes : List Byte}
    (hlen : bytes.length < 4) : ∃ n, decode op bytes = .reject .malformedProgram n :=
  ⟨0, (h.decode_eq bytes).trans (decodeOperands_fi_of_short mk hlen)⟩

end Sys2Proof

namespace Sys2Proof.Machine

/-- A jump changes the instruction pointer only. -/
theorem OnlyIpChanges.withIp (s : State) (target : Word) : OnlyIpChanges s (s.withIp target) :=
  ⟨rfl, rfl, rfl, rfl, rfl, rfl, .of_eq rfl⟩

/-- A jump that falls through changes nothing. -/
theorem OnlyIpChanges.refl (s : State) : OnlyIpChanges s s :=
  ⟨rfl, rfl, rfl, rfl, rfl, rfl, .of_eq rfl⟩

/-- A stack written with its top entry is not empty, and that entry is what a peek reads (R28). -/
theorem State.sp_ne_zero_and_top {s : State} {st : List Word} {v : Word} (h : s.stack = st ++ [v]) :
    s.sp.val ≠ 0 ∧ cellRead s.S (s.sp.val - 1) = v := by
  obtain ⟨hsp, htop⟩ := State.stack_snoc h
  exact ⟨by omega, htop⟩

/-- Settles O49: the decoder by the row of opcode 0x11, and the execution by a zero top, another top and an empty
stack. -/
theorem jzJumpsOnZeroAndKeepsTheStack : Obligations.JzJumpsOnZeroAndKeepsTheStack := by
  refine ⟨fun b0 b1 b2 b3 rest => OpcodeEntry.jz.decode_eq _, fun bytes => OpcodeEntry.jz.decode_fi_of_short,
    fun imm s => ⟨fun st h => ?_, fun st v h hv => ?_, fun h => ?_⟩⟩
  · obtain ⟨hsp, htop⟩ := State.sp_ne_zero_and_top h
    exact ⟨_, exec_jz_of_zero imm hsp htop, rfl, .withIp s imm⟩
  · obtain ⟨hsp, rfl⟩ := State.sp_ne_zero_and_top h
    exact ⟨s, exec_jz_of_nonzero imm hsp hv, rfl, .refl s⟩
  · exact ⟨_, exec_jz_of_empty imm h, .takeFault ..⟩

/-- Settles O50: the decoder by the row of opcode 0x12, and the execution by a non-zero top, a zero top and an empty
stack. -/
theorem jnzJumpsOnNonZeroAndKeepsTheStack : Obligations.JnzJumpsOnNonZeroAndKeepsTheStack := by
  refine ⟨fun b0 b1 b2 b3 rest => OpcodeEntry.jnz.decode_eq _, fun bytes => OpcodeEntry.jnz.decode_fi_of_short,
    fun imm s => ⟨fun st v h hv => ?_, fun st h => ?_, fun h => ?_⟩⟩
  · obtain ⟨hsp, rfl⟩ := State.sp_ne_zero_and_top h
    exact ⟨_, exec_jnz_of_nonzero imm hsp hv, rfl, .withIp s imm⟩
  · obtain ⟨hsp, htop⟩ := State.sp_ne_zero_and_top h
    exact ⟨s, exec_jnz_of_zero imm hsp htop, rfl, .refl s⟩
  · exact ⟨_, exec_jnz_of_empty imm h, .takeFault ..⟩

end Sys2Proof.Machine
end

section
/-! PROOFS. Which fault an instruction raises (60_exceptions.md R201, R204, R210): the statements of the exceptions'
family. R210's table is `firstFault`; execution is tied to it once, and each statement is read off the table. -/

namespace Sys2Proof.Machine

/-! Execution raises the fault of its row. -/

@[simp] theorem poppedOne_fault (s : State) : (poppedOne s).fault = s.fault := rfl
@[simp] theorem replacedOne_fault (v : Word) (s : State) : (replacedOne v s).fault = s.fault := rfl

/-- The row of the binary operators that cannot fault on their operands. -/
theorem firstFault_of_binop {i : Instr} {f : Word → Word → Word} (hf : binopFn i = some f) (s : State) :
    firstFault i s = if s.sp.val < 2 then some .underflow else none := by
  cases i with
  | add | sub | mul | and | or | shl | shr | cmp => rfl
  | _ => cases hf

theorem exec_binop_fault {i : Instr} {f : Word → Word → Word} (hf : binopFn i = some f) {s : State}
    (hs : s.fault = none) : ∃ t, exec i s = .next t ∧ t.fault = firstFault i s := by
  rw [firstFault_of_binop hf]
  by_cases h2 : s.sp.val < 2
  · obtain ⟨t, ht, hfault⟩ := exec_binop_of_lt_two hf h2
    exact ⟨t, ht, hfault.fault.trans (if_pos h2).symm⟩
  · exact ⟨_, exec_binop_of_two hf (Nat.not_lt.1 h2), hs.trans (if_neg h2).symm⟩

theorem exec_div_fault {s : State} (hs : s.fault = none) :
    ∃ t, exec .div s = .next t ∧ t.fault = firstFault .div s := by
  by_cases h0 : s.sp.val = 0
  · exact ⟨_, exec_div_of_empty h0, by simp [firstFault, h0]⟩
  by_cases h1 : s.sp.val = 1
  · exact ⟨_, exec_div_of_one h1, by simp [firstFault, h1]⟩
  have h2 : 2 ≤ s.sp.val := by omega
  by_cases hA : cellRead s.S (s.sp.val - 1) = 0
  · exact ⟨_, exec_div_of_zero h2 hA, ((if_neg (Nat.not_lt.2 h2)).trans (if_pos hA)).symm⟩
  · exact ⟨_, exec_div_of_nonzero h2 hA, hs.trans ((if_neg (Nat.not_lt.2 h2)).trans (if_neg hA)).symm⟩

/-- From a state without a fault, an instruction leaves the fault its row names first, or none (R210). -/
theorem exec_fault (i : Instr) {s : State} (hs : s.fault = none) :
    ∃ t, exec i s = .next t ∧ t.fault = firstFault i s := by
  cases i with
  | halt => exact ⟨_, rfl, hs⟩
  | push imm =>
    by_cases hfull : s.sp.val = stackCap
    · exact ⟨_, exec_push_of_full imm hfull, (if_pos hfull).symm⟩
    · exact ⟨_, exec_push_of_room imm hfull, hs.trans (if_neg hfull).symm⟩
  | pushreg r =>
    by_cases hr : r.toNat < numRegs
    · by_cases hfull : s.sp.val = stackCap
      · exact ⟨_, exec_pushreg_of_full hr hfull, by simp [firstFault, RegId.valid_iff, hr, hfull]⟩
      · exact ⟨_, exec_pushreg_of_room hr hfull, by simp [firstFault, RegId.valid_iff, hr, hfull, hs]⟩
    · exact ⟨_, exec_pushreg_of_invalid hr s, by simp [firstFault, RegId.valid_iff, hr]⟩
  | mov rd rs =>
    by_cases hr : rd.toNat < numRegs ∧ rs.toNat < numRegs
    · obtain ⟨hd, hrs⟩ := hr
      exact ⟨_, exec_mov_of_valid hd hrs s, by simp [firstFault, RegId.valid_iff, hd, hrs, hs]⟩
    · exact ⟨_, exec_mov_of_invalid hr s, by simp [firstFault, RegId.valid_iff, and_comm, hr]⟩
  | lea r imm =>
    by_cases hr : r.toNat < numRegs
    · exact ⟨_, exec_lea_of_valid hr imm s, by simp [firstFault, RegId.valid_iff, hr, hs]⟩
    · exact ⟨_, exec_lea_of_invalid hr imm s, by simp [firstFault, RegId.valid_iff, hr]⟩
  | pop =>
    by_cases h0 : s.sp.val = 0
    · exact ⟨_, exec_pop_of_empty h0, by simp [firstFault, h0]⟩
    · exact ⟨_, exec_pop_of_pos h0, by simp [firstFault, h0, hs]⟩
  | popreg r =>
    by_cases h0 : s.sp.val = 0
    · exact ⟨_, exec_popreg_of_empty r h0, by simp [firstFault, h0]⟩
    by_cases hr : r.toNat < numRegs
    · exact ⟨_, exec_popreg_of_valid hr h0, by simp [firstFault, RegId.valid_iff, h0, hr, hs]⟩
    · exact ⟨_, exec_popreg_of_invalid hr h0, by simp [firstFault, RegId.valid_iff, h0, hr]⟩
  | div => exact exec_div_fault hs
  | not =>
    by_cases h0 : s.sp.val = 0
    · exact ⟨_, exec_not_of_empty h0, by simp [firstFault, h0]⟩
    · exact ⟨_, exec_not_of_pos h0, by simp [firstFault, h0, hs]⟩
  | jmp imm =>
    by_cases h0 : s.sp.val = 0
    · exact ⟨_, exec_jmp_of_empty imm h0, by simp [firstFault, h0]⟩
    · exact ⟨_, exec_jmp_of_pos imm h0, by simp [firstFault, h0, hs]⟩
  | jz imm =>
    by_cases h0 : s.sp.val = 0
    · exact ⟨_, exec_jz_of_empty imm h0, by simp [firstFault, h0]⟩
    by_cases hv : cellRead s.S (s.sp.val - 1) = 0
    · exact ⟨_, exec_jz_of_zero imm h0 hv, by simp [firstFault, h0, hs]⟩
    · exact ⟨_, exec_jz_of_nonzero imm h0 hv, by simp [firstFault, h0, hs]⟩
  | jnz imm =>
    by_cases h0 : s.sp.val = 0
    · exact ⟨_, exec_jnz_of_empty imm h0, by simp [firstFault, h0]⟩
    by_cases hv : cellRead s.S (s.sp.val - 1) = 0
    · exact ⟨_, exec_jnz_of_zero imm h0 hv, by simp [firstFault, h0, hs]⟩
    · exact ⟨_, exec_jnz_of_nonzero imm h0 hv, by simp [firstFault, h0, hs]⟩
  | add | sub | mul | and | or | shl | shr | cmp => exact exec_binop_fault rfl hs

/-- The fault code after an instruction, from a state without a fault, is the entry of R210's table. -/
theorem fault_eq_firstFault {i : Instr} {s t : State} (hs : s.fault = none) (h : exec i s = .next t) :
    t.fault = firstFault i s := by
  obtain ⟨t', ht', hfault⟩ := exec_fault i hs
  cases h.symm.trans ht'
  exact hfault

/-! Where the table names Overflow and DivisionByZero. -/

/-- Overflow stands in the rows of PUSH and PUSHREG only, for a full stack (R201). -/
theorem firstFault_eq_overflow_iff (i : Instr) (s : State) :
    firstFault i s = some .overflow ↔
      s.sp.val = stackCap ∧ ((∃ imm, i = .push imm) ∨ ∃ r, i = .pushreg r ∧ r.toNat < numRegs) := by
  cases i with
  | push imm => simp [firstFault]
  | pushreg r => by_cases hr : r.toNat < numRegs <;> simp [firstFault, RegId.valid_iff, hr]
  | popreg r => simp [firstFault, ite_eq_iff]
  | div => simp [firstFault, ite_eq_iff]
  | _ => simp [firstFault]

/-- DivisionByZero stands in the row of DIV only, for a zero on top of another entry (R204). -/
theorem firstFault_eq_divisionByZero_iff (i : Instr) (s : State) :
    firstFault i s = some .divisionByZero ↔ i = .div ∧ 2 ≤ s.sp.val ∧ cellRead s.S (s.sp.val - 1) = 0 := by
  cases i with
  | div =>
    by_cases h2 : s.sp.val < 2
    · simp [firstFault, h2, Nat.not_le.2 h2]
    · simp [firstFault, h2, Nat.not_lt.1 h2]
  | pushreg r => simp [firstFault, ite_eq_iff]
  | popreg r => simp [firstFault, ite_eq_iff]
  | _ => simp [firstFault]

/-- An instruction whose row names Overflow does nothing but enter the fault: a failed push keeps the stack (R201). -/
theorem exec_of_overflow {i : Instr} {s : State} (h : firstFault i s = some .overflow) :
    exec i s = .next (takeFault .overflow s) := by
  obtain ⟨hfull, ⟨imm, rfl⟩ | ⟨r, rfl, hr⟩⟩ := (firstFault_eq_overflow_iff i s).1 h
  · exact exec_push_of_full imm hfull
  · exact exec_pushreg_of_full hr hfull

/-- A stack can be written with `A` on top of another entry exactly when it has two entries and `A` is the top. -/
theorem State.stack_eq_snoc2_iff (s : State) (A : Word) :
    (∃ st B, s.stack = st ++ [B, A]) ↔ 2 ≤ s.sp.val ∧ cellRead s.S (s.sp.val - 1) = A := by
  constructor
  · rintro ⟨st, B, h⟩
    obtain ⟨hsp, hA, -⟩ := State.stack_snoc2 h
    exact ⟨by omega, hA⟩
  · rintro ⟨h2, rfl⟩
    obtain ⟨n, hn⟩ : ∃ n, s.sp.val = n + 2 := ⟨s.sp.val - 2, by omega⟩
    exact ⟨(List.range n).map (cellRead s.S), cellRead s.S n, by simp [State.stack, hn, List.range_succ]⟩

/-- Settles O56: the fault raised is the row's, and only the rows of PUSH and PUSHREG name Overflow. -/
theorem overflowOnlyByPushesOnAFullStack : Obligations.OverflowOnlyByPushesOnAFullStack := by
  refine ⟨fun i s t hs h ho => ?_, fun imm s hfull => ⟨_, exec_push_of_full imm hfull, .takeFault ..⟩,
    fun r s hfull hr => ⟨_, exec_pushreg_of_full hr hfull, .takeFault ..⟩⟩
  have hrow : firstFault i s = some .overflow := (fault_eq_firstFault hs h).symm.trans ho
  obtain ⟨hfull, hi⟩ := (firstFault_eq_overflow_iff i s).1 hrow
  cases h.symm.trans (exec_of_overflow hrow)
  exact ⟨hfull, rfl, rfl, hi.imp_right fun ⟨r, hr, _⟩ => ⟨r, hr⟩⟩

/-- Settles O58: the fault raised is the row's, and only the row of DIV names DivisionByZero. -/
theorem divisionByZeroExactlyForZeroDivisors : Obligations.DivisionByZeroExactlyForZeroDivisors := by
  intro i s t hs h
  rw [fault_eq_firstFault hs h, firstFault_eq_divisionByZero_iff, State.stack_eq_snoc2_iff]

end Sys2Proof.Machine
end

section
/-! PROOFS. Decoding is inverse to encoding (30_encoding.md R71 to R80), and what a fetch therefore runs
(40_machine_cycle.md R100 to R104). A row of the opcode map makes an instruction of operand bytes (`OpcodeRow.Makes`);
that relation is read off the encoder on one side and off operand decode on the other. -/

namespace Sys2Proof

/-- The row makes the instruction of exactly these operand bytes, by its format (R71). -/
inductive OpcodeRow.Makes : OpcodeRow → List Byte → Instr → Prop
  | f0 (i : Instr) : Makes (.f0 i) [] i
  | fr (mk : RegId → Instr) (r : RegId) : Makes (.fr mk) [r] (mk r)
  | frr (mk : RegId → RegId → Instr) (rd rs : RegId) : Makes (.frr mk) [rd, rs] (mk rd rs)
  | fi (mk : Word → Instr) (imm : Word) : Makes (.fi mk) (bytesOfWord imm) (mk imm)
  | fri (mk : RegId → Word → Instr) (r : RegId) (imm : Word) : Makes (.fri mk) (r :: bytesOfWord imm) (mk r imm)

/-- Operand decode accepts the bytes of a row's instruction, whatever follows them. -/
theorem OpcodeRow.Makes.decodeOperands_eq {row : OpcodeRow} {bytes : List Byte} {i : Instr} (h : row.Makes bytes i)
    (rest : List Byte) : decodeOperands row (bytes ++ rest) = .instr i := by
  cases h with
  | f0 | fr | frr => rfl
  | fi mk imm => rw [decodeOperands, readImm_bytesOfWord]
  | fri mk r imm => rw [List.cons_append, decodeOperands, readReg_cons]; simp only [readImm_bytesOfWord]

/-- Operand decode accepts no other bytes: what it accepts begins with the bytes of the row's instruction. -/
theorem OpcodeRow.makes_of_decodeOperands {row : OpcodeRow} {operands : List Byte} {i : Instr}
    (h : decodeOperands row operands = .instr i) : ∃ bytes rest, operands = bytes ++ rest ∧ row.Makes bytes i := by
  cases row with
  | f0 j => cases h; exact ⟨[], operands, rfl, .f0 i⟩
  | fr mk =>
    obtain ⟨r, rest, rfl, rfl⟩ := decodeOperands_fr h
    exact ⟨[r], rest, rfl, .fr mk r⟩
  | frr mk =>
    obtain ⟨rd, rs, rest, rfl, rfl⟩ := decodeOperands_frr h
    exact ⟨[rd, rs], rest, rfl, .frr mk rd rs⟩
  | fi mk =>
    obtain ⟨b0, b1, b2, b3, rest, rfl, rfl⟩ := decodeOperands_fi h
    exact ⟨_, rest, by rw [bytesOfWord_wordOfBytes]; rfl, .fi mk _⟩
  | fri mk =>
    obtain ⟨r, b0, b1, b2, b3, rest, rfl, rfl⟩ := decodeOperands_fri h
    exact ⟨_, rest, by rw [bytesOfWord_wordOfBytes]; rfl, .fri mk r _⟩

/-- Every instruction is made of its operand bytes by the row of its opcode (R76). -/
theorem Instr.exists_row (i : Instr) : ∃ row, OpcodeEntry i.opcode row ∧ row.Makes i.operandBytes i := by
  cases i <;> exact ⟨_, by constructor, by constructor⟩

/-- The encoder agrees with the opcode map: a row's instruction has that row's opcode and operand bytes. -/
theorem OpcodeEntry.encode_eq {op : Byte} {row : OpcodeRow} {bytes : List Byte} {i : Instr} (h : OpcodeEntry op row)
    (hi : row.Makes bytes i) : encode i = op :: bytes := by
  cases h <;> cases hi <;> rfl

/-- Bytes decode to an instruction exactly when they begin with its encoding (R71, R79). -/
theorem decode_eq_instr_iff (op : Byte) (operands : List Byte) (i : Instr) :
    decode op operands = .instr i ↔ ∃ rest, op :: operands = encode i ++ rest := by
  constructor
  · intro h
    cases hrow : opcodeRow op with
    | none => simp [decode, hrow] at h
    | some row =>
      have hentry := opcodeRow_entry hrow
      rw [hentry.decode_eq] at h
      obtain ⟨bytes, rest, rfl, hi⟩ := OpcodeRow.makes_of_decodeOperands h
      exact ⟨rest, by rw [hentry.encode_eq hi, List.cons_append]⟩
  · rintro ⟨rest, h⟩
    obtain ⟨row, hentry, hi⟩ := i.exists_row
    obtain ⟨rfl, rfl⟩ := List.cons.inj h
    exact (hentry.decode_eq _).trans (hi.decodeOperands_eq rest)

/-- Settles O1, by `decode_eq_instr_iff`. -/
theorem decodeOfEncodeIsTheInstruction : Obligations.DecodeOfEncodeIsTheInstruction :=
  fun i rest op operands h => (decode_eq_instr_iff op operands i).2 ⟨rest, h.symm⟩

/-- Settles O2, by `decode_eq_instr_iff`. -/
theorem decodedBytesAreTheEncoding : Obligations.DecodedBytesAreTheEncoding :=
  fun op operands i => (decode_eq_instr_iff op operands i).1

/-! A truncated instruction. -/

/-- The bytes of an instruction that a row makes are as many as the row's format has (R75). -/
theorem OpcodeRow.Makes.length_eq {row : OpcodeRow} {bytes bytes' : List Byte} {i j : Instr} (h : row.Makes bytes i)
    (h' : row.Makes bytes' j) : bytes.length = bytes'.length := by
  cases h <;> cases h' <;> rfl

/-- The opcode decides the length (R75). -/
theorem Instr.length_eq_of_opcode_eq {i j : Instr} (h : i.opcode = j.opcode) : i.length = j.length := by
  obtain ⟨row, hi, hmi⟩ := i.exists_row
  obtain ⟨row', hj, hmj⟩ := j.exists_row
  obtain rfl : row = row' := Option.some.inj (by rw [← hi.opcodeRow_eq, ← hj.opcodeRow_eq, h])
  rw [← encode_length i, ← encode_length j]
  exact congrArg (· + 1) (hmi.length_eq hmj)

/-- An opcode byte with fewer bytes after it than its instruction has is malformed (R79). -/
theorem decode_of_truncated {i : Instr} {operands : List Byte} (h : operands.length + 1 < i.length) :
    ∃ n, decode i.opcode operands = .reject .malformedProgram n := by
  cases hd : decode i.opcode operands with
  | instr j =>
    obtain ⟨rest, hj⟩ := (decode_eq_instr_iff _ _ _).1 hd
    have hlen : operands.length + 1 = j.length + rest.length := by simpa using congrArg List.length hj
    have hij : i.length = j.length := Instr.length_eq_of_opcode_eq (List.cons.inj hj).1
    omega
  | reject e n =>
    obtain ⟨row, hentry, -⟩ := i.exists_row
    rw [hentry.decode_eq] at hd
    exact ⟨n, by rw [decodeOperands_reject hd]⟩

end Sys2Proof

namespace Sys2Proof.Machine

/-- Settles O6: the window after the opcode ends with the program, so the decode is that of a truncated instruction. -/
theorem truncatedOperandsRaiseMalformedProgram : Obligations.TruncatedOperandsRaiseMalformedProgram := by
  intro s i hr h0 hop hlen
  have hlt : s.ip.toNat < s.prog.len := Memory.lt_len_of_readByte hop
  have hwin := s.prog.window_length_le_rest (s.ip.toNat + 1) 5
  obtain ⟨n, hd⟩ := decode_of_truncated (i := i) (operands := s.prog.window (s.ip.toNat + 1) 5) (by omega)
  exact ⟨_, step_of_reject hr h0 hop hd, .takeFault_ipAdvance ..⟩

/-! Bytes in program memory, and the step that finds an instruction's. -/

/-- The program holds these bytes from an offset on. -/
def Memory.Holds (m : Memory) (a : Nat) (bytes : List Byte) : Prop :=
  ∀ k, k < bytes.length → m.readByte (a + k) = bytes[k]?

theorem Memory.Holds.cons {m : Memory} {a : Nat} {b : Byte} {bytes : List Byte} (hb : m.readByte a = some b)
    (h : m.Holds (a + 1) bytes) : m.Holds a (b :: bytes)
  | 0, _ => hb
  | k + 1, hk => by
    rw [List.getElem?_cons_succ, ← h k (Nat.lt_of_succ_lt_succ hk)]
    congr 1; omega

theorem Memory.Holds.nil (m : Memory) (a : Nat) : m.Holds a [] := nofun

/-- A 4-byte read finds the bytes of its word (R52, R55). -/
theorem Memory.Holds.of_readWord {m : Memory} {a : Nat} {v : Word} (h : m.readWord a = some v) :
    m.Holds a (bytesOfWord v) := by
  obtain ⟨b0, b1, b2, b3, h0, h1, h2, h3, rfl⟩ := Memory.readWord_eq_some.1 h
  rw [bytesOfWord_wordOfBytes]
  exact .cons h0 (.cons h1 (.cons h2 (.cons h3 (.nil m _))))

/-- A step that fetches an opcode byte whose decode is accepted executes the instruction (R104). -/
theorem step_of_instr {s : State} {op : Byte} {i : Instr} (hr : s.run = .running) (h0 : 0 ≤ s.ip.toInt)
    (hop : s.prog.readByte s.ip.toNat = some op) (hd : decode op (s.prog.window (s.ip.toNat + 1) 5) = .instr i) :
    step s = exec i (ipAdvance s i.length) := by
  have hin : s.ip.toInt < (s.prog.len : Int) := ip_inside_of_lt h0 (Memory.lt_len_of_readByte hop)
  rw [step_of_inside hr h0 hin, Memory.cellRead_of_readByte hop, hd]

/-- Where an instruction's encoding stands at `ip`, the step is its execution with `ip` past it (R100 to R104). -/
theorem step_of_holds_encode {s : State} {i : Instr} (hr : s.run = .running) (h0 : 0 ≤ s.ip.toInt)
    (h : s.prog.Holds s.ip.toNat (encode i)) : step s = exec i (ipAdvance s i.length) := by
  have hlt : s.ip.toNat < s.prog.len := Memory.lt_len_of_readByte (h 0 (Nat.succ_pos _))
  obtain ⟨rest, hwin⟩ := Memory.window_eq_append (n := 5 + 1) (by rw [encode_length]; exact length_le i) h
  rw [Memory.window_succ_of_lt hlt] at hwin
  exact step_of_instr hr h0 (Memory.readByte_of_lt hlt) ((decode_eq_instr_iff _ _ i).2 ⟨rest, hwin⟩)

/-- Settles O7, by `step_of_holds_encode`. -/
theorem stepRunsTheDecodedInstruction : Obligations.StepRunsTheDecodedInstruction :=
  fun _ i hr h0 h => step_of_holds_encode hr h0 fun k hk => h k (encode_length i ▸ hk)

/-- Settles O8: the opcode byte, the register byte if there is one and the word's bytes are the encoding. -/
theorem immediatesAreLittleEndianProgramReads : Obligations.ImmediatesAreLittleEndianProgramReads := by
  intro s imm r hr h0
  refine ⟨fun hw => ?_, fun hreg hw hop => ?_⟩
  · have himm : s.prog.Holds (s.ip.toNat + 1) (bytesOfWord imm) := .of_readWord hw
    exact ⟨fun hop => step_of_holds_encode (i := .push imm) hr h0 (.cons hop himm),
      fun hop => step_of_holds_encode (i := .jmp imm) hr h0 (.cons hop himm),
      fun hop => step_of_holds_encode (i := .jz imm) hr h0 (.cons hop himm),
      fun hop => step_of_holds_encode (i := .jnz imm) hr h0 (.cons hop himm)⟩
  · exact step_of_holds_encode (i := .lea r imm) hr h0 (.cons hop (.cons hreg (.of_readWord hw)))

end Sys2Proof.Machine
end

section
/-! PROOFS. The invariant of the block (10_state.md R25, R34): it holds at reset, and every operation keeps it. -/

namespace Sys2Proof.Machine

namespace State.Inv

variable {s : State}

/-- Another stack keeps the invariant where its storage is canonical and 0 from the new top on. -/
theorem withStack (h : s.Inv) {S : List (Nat × Word)} {sp : Fin (stackCap + 1)} (hS : cellsWf stackCap S = true)
    (htail : ∀ i, sp.val ≤ i → cellRead S i = 0) : (s.withStack S sp).Inv :=
  ⟨h.prog, hS, htail, h.fault⟩

theorem withX (h : s.Inv) (x : Vector Word numRegs) : (s.withX x).Inv := ⟨h.prog, h.storage, h.tail, h.fault⟩

theorem withIp (h : s.Inv) (ip : Word) : (s.withIp ip).Inv := ⟨h.prog, h.storage, h.tail, h.fault⟩

/-- A run state other than FAULTED keeps the invariant where there is no fault (R34). -/
theorem withRun (h : s.Inv) {run : RunState} (hs : s.run ≠ .faulted) (hrun : run ≠ .faulted) :
    (s.withRun run s.fault).Inv :=
  ⟨h.prog, h.storage, h.tail, iff_of_true (h.fault.2 hs) hrun⟩

theorem haltRun (h : s.Inv) (hs : s.run ≠ .faulted) : (haltRun s).Inv := h.withRun hs nofun

theorem takeFault (h : s.Inv) (f : FaultKind) : (takeFault f s).Inv :=
  ⟨h.prog, h.storage, h.tail, iff_of_false nofun (not_not_intro rfl)⟩

theorem negativeIp (h : s.Inv) (hs : s.run ≠ .faulted) : (negativeIp s).Inv := by
  rcases negativeIp_cases s with he | he <;> rw [he]
  · exact h.takeFault _
  · exact h.haltRun hs

/-- A push that succeeds (R26): the slot it writes was the first above the top. -/
theorem of_push (h : s.Inv) {v : Word} {t : State} (ht : push v s = .ok () t) : t.Inv := by
  by_cases hfull : s.sp.val = stackCap
  · rw [push_of_full hfull] at ht
    cases ht
  · rw [push_of_room hfull] at ht
    cases ht
    refine h.withStack (cellsWf_write v (Nat.lt_of_le_of_ne (sp_le s) hfull) h.storage) fun i hi => ?_
    have hi : s.sp.val + 1 ≤ i := hi
    rw [cellRead_write_other _ v (by omega)]
    exact h.tail i (by omega)

theorem poppedOne (h : s.Inv) (h0 : s.sp.val ≠ 0) : (poppedOne s).Inv := by
  refine h.withStack (poppedOne_wf h0 h.storage) fun i hi => ?_
  have hi : s.sp.val - 1 ≤ i := hi
  refine (poppedOne_read s i).trans ?_
  split
  · rfl
  · exact h.tail i (by omega)

theorem poppedTwo (h : s.Inv) (h2 : 2 ≤ s.sp.val) : (poppedTwo s).Inv := by
  refine h.withStack (poppedTwo_wf h2 h.storage) fun i hi => ?_
  have hi : s.sp.val - 1 - 1 ≤ i := hi
  refine (poppedTwo_read s i).trans ?_
  split
  · rfl
  · split
    · rfl
    · exact h.tail i (by omega)

theorem replacedOne (h : s.Inv) (h0 : s.sp.val ≠ 0) (v : Word) : (replacedOne v s).Inv :=
  (h.poppedOne h0).of_push (push_poppedOne h0 v)

theorem replacedTwo (h : s.Inv) (h2 : 2 ≤ s.sp.val) (v : Word) : (replacedTwo v s).Inv :=
  (h.poppedTwo h2).of_push (push_poppedTwo h2 v)

end State.Inv

/-- Every effect of an instruction keeps the invariant. -/
theorem ExecEffect.inv {i : Instr} {s t : State} (h : ExecEffect i s t) (hs : s.Inv) (hrun : s.run ≠ .faulted) :
    t.Inv := by
  cases h with
  | halts => exact hs.haltRun hrun
  | faults f => exact hs.takeFault f
  | faultsAfterOnePop f h0 => exact (hs.poppedOne h0).takeFault f
  | faultsAfterTwoPops h2 => exact (hs.poppedTwo h2).takeFault _
  | pushes v hroom => exact hs.of_push (push_of_room hroom v)
  | pops h0 => exact hs.poppedOne h0
  | replacesOne v h0 => exact hs.replacedOne h0 v
  | replacesTwo v h2 => exact hs.replacedTwo h2 v
  | writesRegister => exact hs.withX _
  | popsToRegister r _ v h0 => exact (hs.poppedOne h0).withX _
  | jumps target => exact hs.withIp target
  | fallsThrough => exact hs

/-- Every effect of a step keeps the invariant: where it is not ignored, the run state was not FAULTED. -/
theorem StepEffect.inv {s t : State} (h : StepEffect s t) (hs : s.Inv) : t.Inv := by
  have hne (hr : s.run = .running) : s.run ≠ .faulted := by simp [hr]
  cases h with
  | ignored => exact hs
  | negative hr => exact hs.negativeIp (hne hr)
  | implicitHalt hr => exact hs.haltRun (hne hr)
  | rejected => exact (hs.withIp _).takeFault _
  | executed i t hr _ _ _ ht => exact (exec_effect ht).inv (hs.withIp _) (hne hr)

/-- Settles O11, by `StepEffect.inv`. -/
theorem stepKeepsTheInvariant : Obligations.StepKeepsTheInvariant :=
  fun _ _ hs h => (step_effect h).inv hs

/-- A reset with an acceptable program establishes the invariant, whatever state it is done in (R40). -/
theorem inv_resetState {bytes : List Byte} (h : bytes.length ≤ maxProgLen) (cfg : Config) :
    (resetState bytes cfg).Inv :=
  ⟨Memory.wf_ofBytes h, rfl, fun i _ => cellRead_nil i, iff_of_true rfl nofun⟩

theorem inv_of_resetWith {bytes : List Byte} {s t : State} (h : resetWith bytes s = .next t) : t.Inv := by
  obtain hlt | hle := Nat.lt_or_ge maxProgLen bytes.length
  · rw [resetWith_of_lt hlt] at h
    cases h
  · rw [resetWith_of_le hle] at h
    cases h
    exact inv_resetState hle s.cfg

/-- Settles O12: the reset state is the one a reset with the empty program leaves. -/
theorem resetMeetsTheInvariant : Obligations.ResetMeetsTheInvariant :=
  ⟨inv_resetState (bytes := []) (Nat.zero_le _) Config.default, fun _ _ _ => inv_of_resetWith⟩

theorem inv_startRun {s : State} (hs : s.Inv) : (startRun s).Inv := by
  by_cases hr : s.run = .idle
  · rw [startRun_of_idle hr]
    exact hs.withRun (by simp [hr]) nofun
  · rwa [startRun_of_ne_idle hr]

/-- A sequence of transactions is answered by a next state where its first and then the others are. -/
theorem transactAll_cons_inv {tr : Transaction} {ts : List Transaction} {s t : State}
    (h : transactAll (tr :: ts) s = .next t) : ∃ u, transact tr s = .next u ∧ transactAll ts u = .next t := by
  rw [transactAll] at h
  cases hu : transact tr s with
  | next u => rw [hu] at h; exact ⟨u, rfl, h⟩
  | fault f => rw [hu] at h; cases h
  | refused r => rw [hu] at h; cases h

/-- Every transaction keeps the invariant. -/
theorem inv_of_transact {tr : Transaction} {s t : State} (hs : s.Inv) (h : transact tr s = .next t) : t.Inv := by
  cases tr with
  | reset bytes => exact inv_of_resetWith h
  | start => cases h; exact inv_startRun hs
  | step => exact (step_effect h).inv hs

/-- Settles O13, by induction on the transactions. -/
theorem everyReachableStateMeetsTheInvariant : Obligations.EveryReachableStateMeetsTheInvariant := by
  intro ts s t hs h
  induction ts generalizing s with
  | nil => cases h; exact hs
  | cons tr ts ih =>
    obtain ⟨u, hu, hrest⟩ := transactAll_cons_inv h
    exact ih u (inv_of_transact hs hu) hrest

end Sys2Proof.Machine
end

section
/-! PROOFS. The step, the transitions of the run state and the sequences of steps (40_machine_cycle.md R101 to R109,
70_reset_and_hazards.md R232). -/

namespace Sys2Proof.Machine

/-! Where a step ends the run. -/

theorem HaltsKeeping.haltRun (s : State) : HaltsKeeping s (haltRun s) := ⟨rfl, rfl, rfl, rfl, rfl, rfl, .of_eq rfl⟩

theorem negativeIp_of_fault {s : State} (h : s.cfg.negIpPolicy = .fault) :
    negativeIp s = takeFault .malformedProgram s := by
  rw [negativeIp, h]

theorem negativeIp_of_halt {s : State} (h : s.cfg.negIpPolicy = .halt) : negativeIp s = haltRun s := by
  rw [negativeIp, h]

/-- Settles O9, by `ip` past the end and by each policy at a negative `ip`. -/
theorem stepOutsideTheProgramEndsTheRun : Obligations.StepOutsideTheProgramEndsTheRun := by
  intro s hr
  refine ⟨fun h0 hpast => ⟨_, step_of_past_end hr h0 hpast, .haltRun s⟩, fun hneg hpol => ?_, fun hneg hpol => ?_⟩
  · exact ⟨_, step_of_negative hr hneg, negativeIp_of_fault hpol ▸ .takeFault ..⟩
  · exact ⟨_, step_of_negative hr hneg, negativeIp_of_halt hpol ▸ .haltRun s⟩

/-- Settles O10, by `step_effect_exists`. -/
theorem everyStepAnswersANextState : Obligations.EveryStepAnswersANextState := fun s =>
  let ⟨t, ht, _⟩ := step_effect_exists s
  ⟨t, ht⟩

/-! The transitions of the run state. -/

/-- A run state and a fault code of a run that goes on, that ended normally, or that ended by a fault. -/
theorem StepEffect.run_cases {s t : State} (h : StepEffect s t) (hr : s.run = .running) :
    (t.run = .running ∧ t.fault = s.fault) ∨ (t.run = .halted ∧ t.fault = s.fault) ∨
      (t.run = .faulted ∧ ∃ f, t.fault = some f) := by
  cases h with
  | ignored hn => exact absurd hr hn
  | negative =>
    rcases negativeIp_cases s with he | he <;> rw [he]
    · exact .inr (.inr ⟨rfl, _, rfl⟩)
    · exact .inr (.inl ⟨rfl, rfl⟩)
  | implicitHalt => exact .inr (.inl ⟨rfl, rfl⟩)
  | rejected => exact .inr (.inr ⟨rfl, _, rfl⟩)
  | executed i t _ _ _ _ ht =>
    obtain ⟨hrun, hfault⟩ | ⟨-, hhalt⟩ | hfaulted := (exec_effect ht).run_cases
    · exact .inl ⟨hrun.trans hr, hfault⟩
    · exact .inr (.inl hhalt)
    · exact .inr (.inr hfaulted)

/-- The byte at `ip` is the opcode of the instruction that a step inside the program decodes. -/
theorem readByte_of_decode {s : State} {i : Instr} (h0 : 0 ≤ s.ip.toInt) (hin : s.ip.toInt < (s.prog.len : Int))
    (hd : decode (cellRead s.prog.cells s.ip.toNat) (s.prog.window (s.ip.toNat + 1) 5) = .instr i) :
    s.prog.readByte s.ip.toNat = some i.opcode := by
  obtain ⟨rest, hi⟩ := (decode_eq_instr_iff _ _ i).1 hd
  rw [Memory.readByte_of_lt (ip_lt_len h0 hin), (List.cons.inj hi).1]

/-- A step that halts fetched a HALT, or fetched outside the program (R101, R105). -/
theorem StepEffect.of_halted {s t : State} (h : StepEffect s t) (hr : s.run = .running) (ht : t.run = .halted) :
    s.prog.readByte s.ip.toNat = some 0x00 ∨ s.ip.toInt < 0 ∨ (s.prog.len : Int) ≤ s.ip.toInt := by
  cases h with
  | ignored hn => exact absurd hr hn
  | negative _ hneg => exact .inr (.inl hneg)
  | implicitHalt _ _ hpast => exact .inr (.inr hpast)
  | rejected => cases ht
  | executed i t _ h0 hin hd hexec =>
    obtain ⟨hrun, -⟩ | ⟨rfl, -⟩ | ⟨hrun, -⟩ := (exec_effect hexec).run_cases
    · cases (hrun.trans hr).symm.trans ht
    · exact .inl (readByte_of_decode h0 hin hd)
    · cases hrun.symm.trans ht

theorem resetWith_run {bytes : List Byte} {s t : State} (h : resetWith bytes s = .next t) :
    t.run = .idle ∧ t.fault = none := by
  obtain hlt | hle := Nat.lt_or_ge maxProgLen bytes.length
  · rw [resetWith_of_lt hlt] at h
    cases h
  · rw [resetWith_of_le hle] at h
    cases h
    exact ⟨rfl, rfl⟩

theorem transact_start_of_ne_idle {s : State} (h : s.run ≠ .idle) : transact .start s = .next s := by
  rw [transact_start, startRun_of_ne_idle h]

theorem transact_start_of_idle {s : State} (h : s.run = .idle) :
    transact .start s = .next (s.withRun .running s.fault) := by
  rw [transact_start, startRun_of_idle h]

/-- Settles O15: reset and start by their cases, the step by its effects. -/
theorem runStateMoves : Obligations.RunStateMoves :=
  ⟨fun _ _ _ h => (resetWith_run h).1, fun _ h => ⟨_, transact_start_of_idle h, rfl⟩,
    fun _ => transact_start_of_ne_idle, fun _ => step_of_not_running, fun _ _ hr h => (step_effect h).run_cases hr,
    fun _ _ hr h => (step_effect h).of_halted hr⟩

/-- Settles O16: start and step are ignored in FAULTED, and a reset answers `resetState`. -/
theorem faultedRunsAreFinal : Obligations.FaultedRunsAreFinal := fun s h =>
  ⟨transact_start_of_ne_idle (by simp [h]), step_of_not_running (by simp [h]),
    fun _ hle => ⟨_, resetWith_of_le hle s, rfl, rfl⟩⟩

/-- Settles O18, by IDLE and the other run states. -/
theorem startChangesOnlyTheRunState : Obligations.StartChangesOnlyTheRunState := fun _ =>
  ⟨fun h => ⟨_, transact_start_of_idle h, rfl, rfl, rfl, rfl, rfl, rfl, rfl, .of_eq rfl⟩, transact_start_of_ne_idle⟩

/-! The next `ip`. -/

/-- Only a jump writes `ip` when it executes (R31). -/
theorem ExecEffect.ip_eq {i : Instr} {s t : State} (h : ExecEffect i s t) (hjmp : ∀ v, i ≠ .jmp v)
    (hjz : ∀ v, i ≠ .jz v) (hjnz : ∀ v, i ≠ .jnz v) : t.ip = s.ip := by
  cases h with
  | jumps target _ hi =>
    obtain hi | hi | hi := hi
    · exact absurd hi (hjmp target)
    · exact absurd hi (hjz target)
    · exact absurd hi (hjnz target)
  | _ => rfl

/-- A run that a fault ended is not RUNNING. -/
theorem not_running_of_takeFault {o : Out} {f : FaultKind} {s t : State} (ho : o = .next (takeFault f s))
    (h : o = .next t) : t.run ≠ .running := by
  cases ho.symm.trans h
  nofun

/-- Settles O22: the jumps by an empty stack and by the test of the top, every other instruction by
`ExecEffect.ip_eq`. -/
theorem nextIpIsTheTargetOrTheSequentialOne : Obligations.NextIpIsTheTargetOrTheSequentialOne := by
  intro i s t _ h ht
  cases i with
  | jmp imm =>
    by_cases h0 : s.sp.val = 0
    · exact absurd ht (not_running_of_takeFault (exec_jmp_of_empty imm h0) h)
    · cases (exec_jmp_of_pos imm h0).symm.trans h
      rfl
  | jz imm =>
    by_cases h0 : s.sp.val = 0
    · exact absurd ht (not_running_of_takeFault (exec_jz_of_empty imm h0) h)
    by_cases hv : cellRead s.S (s.sp.val - 1) = 0#32
    · cases (exec_jz_of_zero imm h0 hv).symm.trans h
      simp [takenTarget, hv]
    · cases (exec_jz_of_nonzero imm h0 hv).symm.trans h
      simp [takenTarget, hv]
  | jnz imm =>
    by_cases h0 : s.sp.val = 0
    · exact absurd ht (not_running_of_takeFault (exec_jnz_of_empty imm h0) h)
    by_cases hv : cellRead s.S (s.sp.val - 1) = 0#32
    · cases (exec_jnz_of_zero imm h0 hv).symm.trans h
      simp [takenTarget, hv]
    · cases (exec_jnz_of_nonzero imm h0 hv).symm.trans h
      simp [takenTarget, hv]
  | _ => exact (exec_effect h).ip_eq nofun nofun nofun

/-- Only a jump's row of the opcode map has a target (R173). -/
theorem opcode_of_takenTarget {i : Instr} {v target : Word} (h : takenTarget i v = some target) :
    i.opcode = 0x10 ∨ i.opcode = 0x11 ∨ i.opcode = 0x12 := by
  cases i with
  | jmp => exact .inl rfl
  | jz => exact .inr (.inl rfl)
  | jnz => exact .inr (.inr rfl)
  | _ => cases h

/-- An instruction that decodes lies inside the program (R79). -/
theorem length_le_of_decode {m : Memory} {a : Nat} {op : Byte} {i : Instr} (ha : a < m.len)
    (hd : decode op (m.window (a + 1) 5) = .instr i) : a + i.length ≤ m.len := by
  obtain ⟨rest, hi⟩ := (decode_eq_instr_iff _ _ i).1 hd
  have hlen : (m.window (a + 1) 5).length + 1 = i.length + rest.length := by simpa using congrArg List.length hi
  have hwin := m.window_length_le_rest (a + 1) 5
  omega

/-- Inside a program of an acceptable length, moving `ip` on does not wrap. -/
theorem ipAdvance_toNat {s : State} {n : Nat} (hmax : s.prog.len ≤ maxProgLen) (h : s.ip.toNat + n ≤ s.prog.len) :
    (ipAdvance s n).ip.toNat = s.ip.toNat + n := by
  simp only [maxProgLen] at hmax
  rw [ipAdvance_ip, BitVec.toNat_add, BitVec.toNat_ofNat]
  omega

/-- Settles O21: an instruction that is no taken jump leaves `ip` past itself, and what decodes lies inside the
program. -/
theorem advancingNeverPassesTheEnd : Obligations.AdvancingNeverPassesTheEnd := by
  intro s t hmax hr h ht
  cases step_effect h with
  | ignored hn => exact absurd hr hn
  | negative => rcases negativeIp_cases s with he | he <;> rw [he] at ht <;> cases ht
  | implicitHalt => cases ht
  | rejected => cases ht
  | executed i _ _ h0 hin hd hexec =>
    have hip := nextIpIsTheTargetOrTheSequentialOne i (ipAdvance s i.length) t hr hexec ht
    cases htarget : takenTarget i (cellRead s.S (s.sp.val - 1)) with
    | none =>
      have hend : s.ip.toNat + i.length ≤ s.prog.len := length_le_of_decode (ip_lt_len h0 hin) hd
      have hnext : t.ip = (ipAdvance s i.length).ip := hip.trans (by simp [htarget])
      have hpos := length_pos i
      rw [hnext, ipAdvance_toNat hmax hend]
      exact .inl ⟨by omega, hend⟩
    | some target =>
      rw [readByte_of_decode h0 hin hd]
      exact .inr ((opcode_of_takenTarget htarget).imp (congrArg some) (.imp (congrArg some) (congrArg some)))

/-! Runs of many steps. -/

theorem stepWhileRunning_of_not_running {s : State} (h : s.run ≠ .running) (n : Nat) :
    stepWhileRunning n s = .next s := by
  cases n with
  | zero => rfl
  | succ n =>
    cases hr : s.run with
    | running => exact absurd hr h
    | _ => simp [stepWhileRunning, hr]

theorem stepWhileRunning_succ {s t : State} (hr : s.run = .running) (h : step s = .next t) (n : Nat) :
    stepWhileRunning (n + 1) s = stepWhileRunning n t := by
  rw [stepWhileRunning, hr]
  simp only [h]

/-- Settles O20, by induction on the number of steps: a JMP to its own offset is a step from the state to itself. -/
theorem jumpToItselfNeverEnds : Obligations.JumpToItselfNeverEnds := by
  intro s n hr h0 hsp hbytes
  have hstep : step s = .next s :=
    calc step s
      _ = exec (.jmp s.ip) (ipAdvance s 5) := step_of_holds_encode (i := .jmp s.ip) hr h0 hbytes
      _ = .next ((ipAdvance s 5).withIp s.ip) := exec_jmp_of_pos (s := ipAdvance s 5) s.ip (Nat.ne_of_gt hsp)
      _ = .next s := rfl
  induction n with
  | zero => rfl
  | succ n ih => rw [stepWhileRunning_succ hr hstep, ih]

/-- Steps after the end of a run are ignored, however many (R107). -/
theorem transactAll_steps_of_not_running {s : State} (h : s.run ≠ .running) (k : Nat) :
    transactAll (List.replicate k .step) s = .next s := by
  induction k with
  | zero => rfl
  | succ k ih => rw [List.replicate_succ, transactAll_cons (t := .step) (step_of_not_running h), ih]

/-- The loop of `Execute()` is that many step transactions: those after the end of the run are ignored (R106). -/
theorem stepWhileRunning_eq_transactAll (n : Nat) (s : State) :
    stepWhileRunning n s = transactAll (List.replicate n .step) s := by
  induction n generalizing s with
  | zero => rfl
  | succ n ih =>
    by_cases hr : s.run = .running
    · obtain ⟨t, ht, -⟩ := step_effect_exists s
      rw [stepWhileRunning_succ hr ht, List.replicate_succ, transactAll_cons (t := .step) ht, ih]
    · rw [stepWhileRunning_of_not_running hr, transactAll_steps_of_not_running hr]

/-- A block that is not IDLE is not IDLE after any number of steps (R107). -/
theorem stepWhileRunning_run_ne_idle (n : Nat) {s : State} (hs : s.run ≠ .idle) :
    ∃ t, stepWhileRunning n s = .next t ∧ t.run ≠ .idle := by
  induction n generalizing s with
  | zero => exact ⟨s, rfl, hs⟩
  | succ n ih =>
    by_cases hr : s.run = .running
    · obtain ⟨t, ht, heffect⟩ := step_effect_exists s
      rw [stepWhileRunning_succ hr ht]
      exact ih (heffect.run_ne_idle hs)
    · exact ⟨s, stepWhileRunning_of_not_running hr _, hs⟩

/-- `Execute()` is a start and step transactions (R106). -/
theorem execute_eq_transactAll (n : Nat) (s : State) :
    execute n s = transactAll (.start :: List.replicate n .step) s := by
  rw [execute, stepWhileRunning_eq_transactAll, transactAll_cons (transact_start s)]

/-- Settles O23: steps after the end of the run that `execute` answers are the last of a longer sequence. -/
theorem executeIsStartThenStepsAndEndedRunsStay : Obligations.ExecuteIsStartThenStepsAndEndedRunsStay := by
  refine ⟨fun k s h => transactAll_steps_of_not_running h k, execute_eq_transactAll,
    fun n s => stepWhileRunning_run_ne_idle n (startRun_run_ne_idle s), fun n k s t h ht => ?_⟩
  rw [execute_eq_transactAll] at h
  rw [List.replicate_add, ← List.cons_append, transactAll_append h, transactAll_steps_of_not_running ht]

/-! What a step reads of the program (20_memory.md R52). -/

theorem Memory.exists_readWord_iff (m : Memory) (a : Nat) : (∃ v, m.readWord a = some v) ↔ a + 4 ≤ m.len := by
  unfold Memory.readWord
  split <;> simp [*]

theorem Memory.exists_readByte_iff (m : Memory) (a : Nat) : (∃ b, m.readByte a = some b) ↔ a + 1 ≤ m.len := by
  rw [← Option.isSome_iff_exists, Memory.readByte_isSome, Nat.succ_le_iff]

theorem negativeIp_withProg (s : State) (m : Memory) : negativeIp (s.withProg m) = (negativeIp s).withProg m := by
  cases hpol : s.cfg.negIpPolicy
  · rw [negativeIp_of_fault hpol, negativeIp_of_fault (s := s.withProg m) hpol]; rfl
  · rw [negativeIp_of_halt hpol, negativeIp_of_halt (s := s.withProg m) hpol]; rfl

/-- With another program memory in which every defined read answers the same, the step is the same: fetch and decode
make defined reads only, and execution makes none. -/
theorem step_withProg {s t : State} {m : Memory} (hlen : m.len = s.prog.len)
    (hread : ∀ a, m.readByte a = s.prog.readByte a) (h : step s = .next t) :
    step (s.withProg m) = .next (t.withProg m) := by
  have hop (h0 : 0 ≤ s.ip.toInt) (hin : s.ip.toInt < (s.prog.len : Int)) :
      m.readByte s.ip.toNat = some (cellRead s.prog.cells s.ip.toNat) :=
    (hread _).trans (Memory.readByte_of_lt (ip_lt_len h0 hin))
  cases step_effect h with
  | ignored hn => exact step_of_not_running (s := s.withProg m) hn
  | negative hr hneg => rw [step_of_negative (s := s.withProg m) hr hneg, negativeIp_withProg]
  | implicitHalt hr h0 hpast => exact step_of_past_end (s := s.withProg m) hr h0 (by simpa [hlen] using hpast)
  | rejected e n hr h0 hin hd =>
    rw [← Memory.window_congr hread] at hd
    exact step_of_reject (s := s.withProg m) hr h0 (hop h0 hin) hd
  | executed i _ hr h0 hin hd hexec =>
    rw [← Memory.window_congr hread] at hd
    exact (step_of_instr (s := s.withProg m) hr h0 (hop h0 hin) hd).trans (exec_withProg i m hexec)

/-- Settles O24: the reads by their bounds, the step by `step_effect_exists` and `step_withProg`. -/
theorem memReadIsBoundedAndLittleEndian : Obligations.MemReadIsBoundedAndLittleEndian := by
  refine ⟨Memory.exists_readByte_iff, Memory.exists_readWord_iff, fun m a v h => ?_, fun s f h => ?_,
    fun s t m => step_withProg⟩
  · obtain ⟨b0, b1, b2, b3, h0, h1, h2, h3, rfl⟩ := Memory.readWord_eq_some.1 h
    exact ⟨b0, b1, b2, b3, h0, h1, h2, h3, wordOfBytes_toNat b0 b1 b2 b3⟩
  · obtain ⟨t, ht, -⟩ := step_effect_exists s
    cases ht.symm.trans h

/-! The observation interface (10_state.md R38). -/

theorem reg_of_invalid {r : RegId} (h : 8 ≤ r.toNat) (s : State) : s.reg r = .error .invalidRegister :=
  dif_neg (Nat.not_lt.2 h)

theorem reg_of_valid {r : RegId} {k : Fin numRegs} (h : r.toNat = k.val) (s : State) : s.reg r = .ok s.x[k] := by
  have hr : r.toNat < numRegs := h ▸ k.isLt
  obtain rfl : k = ⟨r.toNat, hr⟩ := Fin.ext h.symm
  exact dif_pos hr

theorem stackStorage_getElem? (s : State) {i : Nat} (h : i < 2048) : s.stackStorage[i]? = some (cellRead s.S i) := by
  simp [State.stackStorage, h]

theorem stackIsEmpty_iff (s : State) : s.stackIsEmpty = true ↔ s.stack = [] := by
  rw [← List.length_eq_zero_iff, State.stack_length, State.stackIsEmpty, decide_eq_true_eq]

/-- The fault code 0 is NONE alone (R34). -/
theorem faultCode_eq_zero_iff (f : Option FaultKind) : faultCode f = 0 ↔ f = none := by
  cases f with
  | none => decide
  | some f => cases f <;> decide

/-- Settles O31: each accessor by its own lemma, and each code by the run state or the fault it stands for. -/
theorem accessorsShowTheState : Obligations.AccessorsShowTheState := fun s =>
  have hrun {r : RunState} (h : s.run = r) : s.runState = runCode r := congrArg runCode h
  have hfault {f : FaultKind} (h : s.fault = some f) : s.faultCodeAccessor = faultCode (some f) := congrArg faultCode h
  ⟨by simp [State.stackStorage], fun _ => stackStorage_getElem? s, fun _ h => reg_of_invalid h s,
    fun _ _ h => reg_of_valid h s, fun _ => rfl, rfl, s.stack_length.symm, stackIsEmpty_iff s, hrun, hrun, hrun, hrun,
    faultCode_eq_zero_iff s.fault, hfault, hfault, hfault, hfault, hfault, hfault⟩

end Sys2Proof.Machine
end

section
/-! PROOFS. HALT, the data movement instructions, NOT and JMP (40_machine_cycle.md R105, 41_data_movement.md R121 to R125,
42_alu.md R147, 43_control_flow.md R170): the instructions with at most one stack operand. -/

namespace Sys2Proof.Machine

/-- Settles O32, by the row of opcode 0x00 and the only case of HALT. -/
theorem haltEndsTheRun : Obligations.HaltEndsTheRun :=
  ⟨OpcodeEntry.halt.decode_eq, fun s => ⟨_, exec_halt s, .haltRun s⟩⟩

/-- Settles O34: the execution by a bad identifier, and by a register with a free slot and without. -/
theorem pushregPushesTheRegister : Obligations.PushregPushesTheRegister := by
  refine ⟨fun r rest => OpcodeEntry.pushreg.decode_eq _, ⟨0, OpcodeEntry.pushreg.decode_eq _⟩,
    fun r s => ⟨fun k hk h => ?_, fun h => ?_, fun hr h => ?_⟩⟩
  · have hr : r.toNat < numRegs := hk ▸ k.isLt
    obtain rfl : k = ⟨r.toNat, hr⟩ := Fin.ext hk.symm
    have hroom : s.sp.val ≠ stackCap := Nat.ne_of_lt h
    exact ⟨_, exec_pushreg_of_room hr hroom, stack_of_push hroom _, .withStack ..⟩
  · exact ⟨_, exec_pushreg_of_invalid (Nat.not_lt.2 h) s, .takeFault ..⟩
  · exact ⟨_, exec_pushreg_of_full hr h, .takeFault ..⟩

/-- Settles O35: the execution by two identifiers that name registers, and by one that does not. -/
theorem movCopiesTheSourceRegister : Obligations.MovCopiesTheSourceRegister := by
  refine ⟨fun rd rs rest => OpcodeEntry.mov.decode_eq _, fun bytes h => ?_,
    fun rd rs s => ⟨fun d k hd hk => ?_, fun h => ?_⟩⟩
  · rw [OpcodeEntry.mov.decode_eq]
    match bytes with
    | [] => exact ⟨0, rfl⟩
    | [_] => exact ⟨1, rfl⟩
  · have hrd : rd.toNat < numRegs := hd ▸ d.isLt
    have hrs : rs.toNat < numRegs := hk ▸ k.isLt
    obtain rfl : d = ⟨rd.toNat, hrd⟩ := Fin.ext hd.symm
    obtain rfl : k = ⟨rs.toNat, hrs⟩ := Fin.ext hk.symm
    exact ⟨_, exec_mov_of_valid hrd hrs s, Vector.getElem_set_self hrd, .withX_set hrd _ s⟩
  · have hbad : ¬ (rd.toNat < numRegs ∧ rs.toNat < numRegs) := by simp only [numRegs]; omega
    exact ⟨_, exec_mov_of_invalid hbad s, .takeFault ..⟩

/-- Settles O37, by a stack with a top and an empty one. -/
theorem popDiscardsTheTop : Obligations.PopDiscardsTheTop := by
  refine ⟨OpcodeEntry.pop.decode_eq, fun s => ⟨fun st A h => ?_, fun h => ⟨_, exec_pop_of_empty h, .takeFault ..⟩⟩⟩
  obtain ⟨h0, -⟩ := State.sp_ne_zero_and_top h
  exact ⟨_, exec_pop_of_pos h0, stack_of_poppedOne h, cellRead_write_same _ _ 0, .withStack ..⟩

/-- A pop into register `r` changes the stack and register `r` only. -/
theorem OnlyStackAndRegisterChange.poppedOne_withX_set {r : RegId} (hr : r.toNat < numRegs) (v : Word) (s : State) :
    OnlyStackAndRegisterChange r s ((poppedOne s).withX (s.x.set r.toNat v)) where
  others _ hk := Vector.getElem_set_ne hr _ hk.symm
  ip := rfl
  run := rfl
  fault := rfl
  cfg := rfl
  prog := .of_eq rfl

/-- Settles O38: the execution by an empty stack, and by a top with a register and with a bad identifier. -/
theorem popregPopsIntoTheRegister : Obligations.PopregPopsIntoTheRegister := by
  refine ⟨fun r rest => OpcodeEntry.popreg.decode_eq _, ⟨0, OpcodeEntry.popreg.decode_eq _⟩,
    fun r s => ⟨fun k st A hk h => ?_, fun h => ⟨_, exec_popreg_of_empty r h, .takeFault ..⟩, fun st A hr h => ?_⟩⟩
  · have hr : r.toNat < numRegs := hk ▸ k.isLt
    obtain rfl : k = ⟨r.toNat, hr⟩ := Fin.ext hk.symm
    obtain ⟨h0, rfl⟩ := State.sp_ne_zero_and_top h
    exact ⟨_, exec_popreg_of_valid hr h0, stack_of_poppedOne h, Vector.getElem_set_self hr,
      .poppedOne_withX_set hr _ s⟩
  · obtain ⟨h0, -⟩ := State.sp_ne_zero_and_top h
    exact ⟨_, exec_popreg_of_invalid (Nat.not_lt.2 hr) h0, stack_of_poppedOne h, .takeFault_poppedOne ..⟩

/-- The complement in signed terms (R147). -/
theorem aluNot_toInt (A : Word) : (aluNot A).toInt = -A.toInt - 1 := by
  have h := A.isLt
  simp only [aluNot, BitVec.toInt_eq_toNat_cond, BitVec.toNat_not]
  split <;> split <;> omega

/-- Settles O45, by a stack with a top, full or not, and an empty one. -/
theorem notPushesTheComplement : Obligations.NotPushesTheComplement := by
  refine ⟨OpcodeEntry.not.decode_eq, fun s => ⟨fun st A h => ?_, fun h => ⟨_, exec_not_of_empty h, .takeFault ..⟩⟩⟩
  obtain ⟨h0, rfl⟩ := State.sp_ne_zero_and_top h
  exact ⟨_, _, exec_not_of_pos h0, stack_of_replacedOne h _, fun n hn => by simp [aluNot, hn], aluNot_toInt _,
    .withStack ..⟩

/-- Settles O48, by a stack with a top, whatever it is, and an empty one. -/
theorem jmpWritesItsTarget : Obligations.JmpWritesItsTarget :=
  ⟨fun _ _ _ _ _ => OpcodeEntry.jmp.decode_eq _, fun _ => OpcodeEntry.jmp.decode_fi_of_short, fun imm s =>
    ⟨fun h => ⟨_, exec_jmp_of_pos imm (Nat.ne_of_gt h), rfl, .withIp s imm⟩,
      fun h => ⟨_, exec_jmp_of_empty imm h, .takeFault ..⟩⟩⟩

end Sys2Proof.Machine
end

section
/-! PROOFS. The two-operand operators (42_alu.md R140 to R150, 44_compare.md R180): what each computes, and the
statements, which are `exec_binop_of_stack` with that result. -/

namespace Sys2Proof.Machine

/-! The arithmetic results, modulo 2^32 and where they fit. -/

/-- `bits32` is its argument modulo 2^32 (00_scope.md R7). -/
theorem bits32_toNat (n : Int) : ((bits32 n).toNat : Int) = n % 2 ^ 32 := by
  rw [bits32, BitVec.toNat_ofInt, Int.toNat_of_nonneg (Int.emod_nonneg _ (by decide))]
  rfl

/-- `bits32` is exact on the 32-bit signed numbers. -/
theorem bits32_toInt {n : Int} (hlo : -2 ^ 31 ≤ n) (hhi : n < 2 ^ 31) : (bits32 n).toInt = n :=
  BitVec.toInt_ofInt_eq_self (by decide) hlo hhi

theorem aluAdd_eq (B A : Word) : aluAdd B A = B + A := by
  simp [aluAdd, bits32, BitVec.ofInt_add]

theorem aluSub_eq (B A : Word) : aluSub B A = B - A := by
  simp [aluSub, bits32, Int.sub_eq_add_neg, BitVec.ofInt_add, BitVec.ofInt_neg, BitVec.sub_eq_add_neg]

theorem aluMul_eq (B A : Word) : aluMul B A = B * A := by
  simp [aluMul, bits32, BitVec.ofInt_mul]

/-! The shifts. -/

/-- The low 5 bits of the top entry are its value modulo 32 (R148). -/
theorem shiftAmount_eq (A : Word) : shiftAmount A = A.toNat % 32 := by
  simp [shiftAmount]

/-- The divisor is positive, so the floor is the library's `/` (R150). -/
theorem fdiv_shiftAmount_eq (B A : Word) :
    Int.fdiv B.toInt (2 ^ shiftAmount A) = B.toInt / 2 ^ (A.toNat % 32) := by
  rw [shiftAmount_eq, Int.fdiv_eq_ediv_of_nonneg _ (by positivity)]

/-- The floor of the quotient by a power of two is the pattern shifted down with its sign (R150). -/
theorem aluShr_eq (B A : Word) : aluShr B A = B.sshiftRight (A.toNat % 32) := by
  rw [aluShr, fdiv_shiftAmount_eq, BitVec.sshiftRight, Int.shiftRight_eq_div_pow]
  rfl

theorem aluShr_toInt (B A : Word) : (aluShr B A).toInt = B.toInt / 2 ^ (A.toNat % 32) := by
  rw [aluShr_eq, BitVec.toInt_sshiftRight, Int.shiftRight_eq_div_pow]
  rfl

theorem aluShl_toNat (B A : Word) : (aluShl B A).toNat = B.toNat * 2 ^ (A.toNat % 32) % 2 ^ 32 := by
  rw [aluShl, BitVec.toNat_shiftLeft, shiftAmount_eq, Nat.shiftLeft_eq]

/-! The operators. -/

/-- What holds of a binary operator's result holds of the entry it leaves. -/
theorem exec_binop_result {i : Instr} {f : Word → Word → Word} (hf : binopFn i = some f) {s : State} {st : List Word}
    {B A : Word} (h : s.stack = st ++ [B, A]) {P : Word → Prop} (hP : P (f B A)) :
    ∃ t v, exec i s = .next t ∧ t.stack = st ++ [v] ∧ P v ∧ OnlyStackChanges s t := by
  obtain ⟨t, ht, hstack, hframe⟩ := exec_binop_of_stack hf h
  exact ⟨t, _, ht, hstack, hP, hframe⟩

/-- Settles O39, by the row of opcode 0x07 and the result of ADD. -/
theorem addPushesTheSum : Obligations.AddPushesTheSum :=
  ⟨OpcodeEntry.add.decode_eq, fun _ =>
    ⟨fun _ _ _ h => exec_binop_result (i := .add) rfl h (bits32_toNat _), exec_binop_of_lt_two rfl⟩⟩

/-- Settles O40, by the row of opcode 0x08 and the result of SUB. -/
theorem subPushesTheDifference : Obligations.SubPushesTheDifference :=
  ⟨OpcodeEntry.sub.decode_eq, fun _ =>
    ⟨fun _ _ _ h => exec_binop_result (i := .sub) rfl h (bits32_toNat _), exec_binop_of_lt_two rfl⟩⟩

/-- Settles O41, by the row of opcode 0x09 and the result of MUL. -/
theorem mulPushesTheLowProduct : Obligations.MulPushesTheLowProduct :=
  ⟨OpcodeEntry.mul.decode_eq, fun _ =>
    ⟨fun _ _ _ h => exec_binop_result (i := .mul) rfl h (bits32_toNat _), exec_binop_of_lt_two rfl⟩⟩

/-- Settles O46, by the row of opcode 0x0E and the result of SHL. -/
theorem shlPushesTheLeftShift : Obligations.ShlPushesTheLeftShift :=
  ⟨OpcodeEntry.shl.decode_eq, fun _ =>
    ⟨fun _ B A h => exec_binop_result (i := .shl) rfl h (aluShl_toNat B A), exec_binop_of_lt_two rfl⟩⟩

/-- Settles O47: the result of SHR is a floor, which the two inequalities pin down. -/
theorem shrPushesTheArithmeticRightShift : Obligations.ShrPushesTheArithmeticRightShift := by
  refine ⟨OpcodeEntry.shr.decode_eq, fun s => ⟨fun st B A h => ?_, exec_binop_of_lt_two rfl⟩⟩
  obtain ⟨t, ht, hstack, hframe⟩ := exec_binop_of_stack (i := .shr) rfl h
  have hpos : (0 : Int) < 2 ^ (A.toNat % 32) := by positivity
  refine ⟨t, aluShr B A, ht, hstack, ?_, ?_, hframe⟩
  · rw [aluShr_toInt]
    exact Int.ediv_mul_le _ (ne_of_gt hpos)
  · rw [aluShr_toInt]
    exact Int.lt_ediv_add_one_mul_self _ hpos

/-- Settles O51, by equal and by different operands. -/
theorem cmpPushesEquality : Obligations.CmpPushesEquality := by
  refine ⟨OpcodeEntry.cmp.decode_eq, fun s => ⟨fun st v h => ?_, fun st B A h hne => ?_, exec_binop_of_lt_two rfl⟩⟩
  · have hres : equalResult v v = 1 := if_pos rfl
    exact hres ▸ exec_binop_of_stack (i := .cmp) rfl h
  · have hres : equalResult B A = 0 := if_neg hne
    exact hres ▸ exec_binop_of_stack (i := .cmp) rfl h

/-! DIV, which alone looks at an operand before it computes (R144). -/

/-- With a divisor that is not 0, DIV replaces its operands by the quotient and changes nothing else. -/
theorem exec_div_of_stack {s : State} {st : List Word} {B A : Word} (h : s.stack = st ++ [B, A]) (hA : A ≠ 0) :
    ∃ t, exec .div s = .next t ∧ t.stack = st ++ [aluDiv B A] ∧ OnlyStackChanges s t := by
  obtain ⟨hsp, rfl, rfl⟩ := State.stack_snoc2 h
  exact ⟨_, exec_div_of_nonzero (by omega) hA, stack_of_replacedTwo h _, .withStack ..⟩

theorem EntersFault.takeFault_poppedTwo (f : FaultKind) (s : State) : EntersFault f s (takeFault f (poppedTwo s)) :=
  ⟨rfl, rfl, rfl, rfl, .of_eq rfl⟩

/-- Settles O42, by a divisor that is not 0, one that is, and a stack that is too short. -/
theorem divPushesTheTruncatedQuotient : Obligations.DivPushesTheTruncatedQuotient := by
  refine ⟨OpcodeEntry.div.decode_eq, fun s => ⟨fun st B A h hA => ?_, fun st B h => ?_, fun h => ?_⟩⟩
  · obtain ⟨t, ht, hstack, hframe⟩ := exec_div_of_stack h hA
    exact ⟨t, _, ht, hstack, bits32_toNat _, hframe⟩
  · obtain ⟨hsp, hA, -⟩ := State.stack_snoc2 h
    exact ⟨_, exec_div_of_zero (by omega) hA, stack_of_poppedTwo h, .takeFault_poppedTwo ..⟩
  · by_cases h0 : s.sp.val = 0
    · exact ⟨_, exec_div_of_empty h0, (FaultsWithStackKept.takeFault ..).enters⟩
    · exact ⟨_, exec_div_of_one (by omega), .takeFault_poppedOne ..⟩

/-! The statements of several operators. -/

/-- Settles O52: each of the four results is `bits32` of the exact one. -/
theorem arithmeticIsExactWhereItFits : Obligations.ArithmeticIsExactWhereItFits := by
  rintro s st B A i n h (⟨rfl, rfl⟩ | ⟨rfl, rfl⟩ | ⟨rfl, rfl⟩ | ⟨rfl, hA, rfl⟩) hlo hhi
  · exact exec_binop_result (i := .add) rfl h (bits32_toInt hlo hhi)
  · exact exec_binop_result (i := .sub) rfl h (bits32_toInt hlo hhi)
  · exact exec_binop_result (i := .mul) rfl h (bits32_toInt hlo hhi)
  · obtain ⟨t, ht, hstack, hframe⟩ := exec_div_of_stack h hA
    exact ⟨t, _, ht, hstack, bits32_toInt hlo hhi, hframe⟩

theorem aluShl_getLsbD (B A : Word) {n : Nat} (hn : n < 32) :
    (aluShl B A).getLsbD n = (decide (A.toNat % 32 ≤ n) && B.getLsbD (n - A.toNat % 32)) := by
  rw [aluShl, shiftAmount_eq, BitVec.getLsbD_shiftLeft]
  simp only [hn, decide_true, Bool.true_and, ← decide_not, Nat.not_lt]

theorem aluShr_getLsbD (B A : Word) {n : Nat} (hn : n < 32) :
    (aluShr B A).getLsbD n = if n + A.toNat % 32 < 32 then B.getLsbD (n + A.toNat % 32) else B.getLsbD 31 := by
  rw [aluShr_eq, BitVec.getLsbD_sshiftRight, Nat.add_comm]
  simp [hn, BitVec.msb_eq_getLsbD_last]

/-- Settles O53: the wrapped results are those of the patterns, and the shifts move the bits. -/
theorem aluResultsInTheirBitPatternForms : Obligations.AluResultsInTheirBitPatternForms := by
  intro s st B A h
  have hbinop {i : Instr} {f : Word → Word → Word} (hf : binopFn i = some f) :
      ∃ t, exec i s = .next t ∧ t.stack = st ++ [f B A] :=
    let ⟨t, ht, hstack, _⟩ := exec_binop_of_stack hf h
    ⟨t, ht, hstack⟩
  have hmul : aluMul B A = BitVec.ofNat 32 (B.toNat * A.toNat) := by rw [aluMul_eq, BitVec.ofNat_mul]; simp
  refine ⟨hmul ▸ hbinop (i := .mul) rfl, aluAdd_eq B A ▸ hbinop (i := .add) rfl,
    aluSub_eq B A ▸ hbinop (i := .sub) rfl, ?_, ?_⟩
  · obtain ⟨t, ht, hstack⟩ := hbinop (i := .shl) rfl
    exact ⟨t, _, ht, hstack, fun n => aluShl_getLsbD B A⟩
  · obtain ⟨t, ht, hstack⟩ := hbinop (i := .shr) rfl
    exact ⟨t, _, ht, hstack, fun n => aluShr_getLsbD B A⟩

end Sys2Proof.Machine
end

section
/-! PROOFS. Faults, and what an instruction leaves of the stack (60_exceptions.md R202 to R210, 10_state.md R24): the
statements that speak of every instruction at once. -/

namespace Sys2Proof.Machine

/-- Settles O54: fault entry is `takeFault`, by its fields, and a raised answer passes through a sequence. -/
theorem faultEntryKeepsEverythingElse : Obligations.FaultEntryKeepsEverythingElse := fun f s =>
  ⟨⟨_, Res.finish_raised f s, rfl, rfl, rfl, rfl, rfl, rfl, rfl, rfl, rfl⟩, fun _ _ => Res.andThen_raised f s⟩

/-! Where the table names Underflow and InvalidRegister. -/

/-- Underflow stands in every row for a stack below the row's minimum depth, and before any other fault (R202). -/
theorem firstFault_eq_underflow_iff (i : Instr) (s : State) :
    firstFault i s = some .underflow ↔ s.sp.val < minDepth i := by
  cases i with
  | push imm => simp [firstFault, minDepth]
  | pushreg r => simp [firstFault, minDepth, ite_eq_iff]
  | popreg r => simp [firstFault, minDepth, ite_eq_iff]
  | div => simp [firstFault, minDepth, ite_eq_iff]
  | _ => simp [firstFault, minDepth]

/-- InvalidRegister stands in no row of a well-formed instruction (R203). -/
theorem firstFault_ne_invalidRegister {i : Instr} (hi : i.wellFormed = true) (s : State) :
    firstFault i s ≠ some .invalidRegister := by
  cases i with
  | pushreg r => simp_all [firstFault, Instr.wellFormed, ite_eq_iff]
  | mov rd rs => simp_all [firstFault, Instr.wellFormed]
  | lea r imm => simp_all [firstFault, Instr.wellFormed]
  | popreg r => simp_all [firstFault, Instr.wellFormed, ite_eq_iff]
  | div => simp [firstFault, ite_eq_iff]
  | _ => simp [firstFault]

/-- Settles O55: the fault raised is the row's. -/
theorem underflowExactlyBelowTheMinimumDepth : Obligations.UnderflowExactlyBelowTheMinimumDepth := by
  intro i s t hs h
  rw [fault_eq_firstFault hs h, firstFault_eq_underflow_iff]

/-- Settles O57: the four register instructions by their case of a bad identifier, the others by their rows. -/
theorem invalidRegisterExactlyForBadIdentifiers : Obligations.InvalidRegisterExactlyForBadIdentifiers := by
  refine ⟨fun r s hr => ?_, fun i s t hi hs h => ?_, fun r rs rest => ?_⟩
  · have hbad : ¬ r.toNat < numRegs := Nat.not_lt.2 hr
    exact ⟨⟨_, exec_pushreg_of_invalid hbad s, .takeFault ..⟩,
      fun imm => ⟨_, exec_lea_of_invalid hbad imm s, .takeFault ..⟩,
      fun rs => ⟨_, exec_mov_of_invalid (fun h => hbad h.1) s, .takeFault ..⟩,
      fun rd => ⟨_, exec_mov_of_invalid (fun h => hbad h.2) s, .takeFault ..⟩,
      fun h0 => ⟨_, exec_popreg_of_invalid hbad (Nat.ne_of_gt h0), .takeFault_poppedOne ..⟩⟩
  · rw [fault_eq_firstFault hs h]
    exact firstFault_ne_invalidRegister hi s
  · exact ⟨OpcodeEntry.pushreg.decode_eq _, OpcodeEntry.popreg.decode_eq _, OpcodeEntry.mov.decode_eq _,
      fun _ _ _ _ => OpcodeEntry.lea.decode_eq _⟩

/-- Settles O59: the fault code is the row's, and a run without a fault is FAULTED afterwards exactly with one. -/
theorem instructionsRaiseTheFirstFaultOfTheirRow : Obligations.InstructionsRaiseTheFirstFaultOfTheirRow := by
  intro i s t hr hs h
  have hfault := fault_eq_firstFault hs h
  refine ⟨hfault, ?_⟩
  rw [← hfault]
  obtain ⟨hrun, hkept⟩ | ⟨-, hrun, hkept⟩ | ⟨hrun, hsome⟩ := (exec_effect h).run_cases
  · simp [hrun, hr, hkept, hs]
  · simp [hrun, hkept, hs]
  · simp [hrun, hsome]

/-! The operands of an instruction. -/

/-- The instructions that take two operands are the binary operators and DIV. -/
theorem minDepth_eq_two_iff (i : Instr) : minDepth i = 2 ↔ (∃ f, binopFn i = some f) ∨ i = .div := by
  cases i <;> simp [minDepth, binopFn]

theorem poppedOne_below {s : State} {k : Nat} (h : k + 1 < s.sp.val) :
    k < (poppedOne s).sp.val ∧ cellRead (poppedOne s).S k = cellRead s.S k :=
  ⟨Nat.lt_sub_of_add_lt h, by rw [poppedOne_read, if_neg (by omega)]⟩

theorem poppedTwo_below {s : State} {k : Nat} (h : k + 2 < s.sp.val) :
    k < (poppedTwo s).sp.val ∧ cellRead (poppedTwo s).S k = cellRead s.S k :=
  ⟨Nat.lt_sub_of_add_lt (Nat.lt_sub_of_add_lt h), by rw [poppedTwo_read, if_neg (by omega), if_neg (by omega)]⟩

theorem replacedOne_below (v : Word) {s : State} {k : Nat} (h : k + 1 < s.sp.val) :
    k < (replacedOne v s).sp.val ∧ cellRead (replacedOne v s).S k = cellRead s.S k :=
  ⟨Nat.lt_of_succ_lt h, by rw [replacedOne_read, if_neg (by omega)]⟩

theorem replacedTwo_below (v : Word) {s : State} {k : Nat} (h : k + 2 < s.sp.val) :
    k < (replacedTwo v s).sp.val ∧ cellRead (replacedTwo v s).S k = cellRead s.S k :=
  ⟨Nat.lt_sub_of_add_lt (Nat.lt_of_succ_lt h),
    by rw [replacedTwo_read v (by omega), if_neg (by omega), if_neg (by omega)]⟩

/-- Settles O30, effect by effect: no effect pops or writes below the instruction's operands. -/
theorem entriesBelowTheOperandsStay : Obligations.EntriesBelowTheOperandsStay := by
  intro i s t k h hk
  have hlt : k < s.sp.val := by omega
  cases exec_effect h with
  | faultsAfterOnePop f _ hi =>
    obtain ⟨h1, -, hi⟩ | ⟨-, r, rfl, -⟩ := hi
    · rw [(minDepth_eq_two_iff i).2 hi] at hk
      omega
    · exact poppedOne_below hk
  | faultsAfterTwoPops _ hi =>
    subst hi
    exact poppedTwo_below hk
  | pushes v => exact ⟨Nat.lt_succ_of_lt hlt, cellRead_write_other _ v (Nat.ne_of_lt hlt)⟩
  | pops _ hi =>
    subst hi
    exact poppedOne_below hk
  | replacesOne v _ hi =>
    subst hi
    exact replacedOne_below v hk
  | replacesTwo v _ hi =>
    rw [(minDepth_eq_two_iff i).2 hi] at hk
    exact replacedTwo_below v hk
  | popsToRegister r _ v _ hi =>
    subst hi
    exact poppedOne_below hk
  | _ => exact ⟨hlt, rfl⟩

/-! What a fault leaves behind (R208). -/

/-- A two-operand operator on one entry raises Underflow after the one pop that can be done. -/
theorem exec_twoOperands_of_one {i : Instr} {s : State} (hi : minDepth i = 2) (h : s.sp.val = 1) :
    exec i s = .next (takeFault .underflow (poppedOne s)) := by
  obtain ⟨f, hf⟩ | rfl := (minDepth_eq_two_iff i).1 hi
  · exact exec_binop_of_one hf h
  · exact exec_div_of_one h

theorem stack_of_poppedOne_of_one {s : State} (h : s.sp.val = 1) : (poppedOne s).stack = [] :=
  List.eq_nil_of_length_eq_zero (by simp [h])

/-- A DIV of two entries that ends the run had 0 on top, and both are popped. -/
theorem div_faulted {s t : State} (hr : s.run = .running) (h : exec .div s = .next t) (ht : t.run = .faulted)
    (h2 : 2 ≤ s.sp.val) : ∃ B, s.stack = t.stack ++ [B, 0] := by
  by_cases hA : cellRead s.S (s.sp.val - 1) = 0#32
  · obtain ⟨st, B, hst⟩ := (s.stack_eq_snoc2_iff 0).2 ⟨h2, hA⟩
    cases (exec_div_of_zero h2 hA).symm.trans h
    exact ⟨B, hst.trans (congrArg (· ++ [B, 0]) (stack_of_poppedTwo hst).symm)⟩
  · cases (exec_div_of_nonzero h2 hA).symm.trans h
    cases hr.symm.trans ht

/-- A POPREG of one entry or more that ends the run had a bad register, and the top is popped. -/
theorem popreg_faulted {r : RegId} {s t : State} (hr : s.run = .running) (h : exec (.popreg r) s = .next t)
    (ht : t.run = .faulted) (h1 : 1 ≤ s.sp.val) : 8 ≤ r.toNat ∧ ∃ A, s.stack = t.stack ++ [A] := by
  have h0 : s.sp.val ≠ 0 := Nat.ne_of_gt h1
  by_cases hreg : r.toNat < numRegs
  · cases (exec_popreg_of_valid hreg h0).symm.trans h
    cases hr.symm.trans ht
  · obtain ⟨st, hst⟩ := State.exists_stack_snoc h0
    cases (exec_popreg_of_invalid hreg h0).symm.trans h
    exact ⟨Nat.not_lt.1 hreg, _, hst.trans (congrArg (· ++ [_]) (stack_of_poppedOne hst).symm)⟩

/-- An instruction that ends the run with a fault has written no register. -/
theorem ExecEffect.x_eq_of_faulted {i : Instr} {s t : State} (h : ExecEffect i s t) (hr : s.run = .running)
    (ht : t.run = .faulted) : t.x = s.x := by
  cases h with
  | writesRegister => cases hr.symm.trans ht
  | popsToRegister => cases hr.symm.trans ht
  | _ => rfl

/-- Outside the three cases that leave pops behind, an instruction that ends the run with a fault has kept the stack. -/
theorem ExecEffect.stack_eq_of_faulted {i : Instr} {s t : State} (h : ExecEffect i s t) (hr : s.run = .running)
    (ht : t.run = .faulted) (hone : ¬ (minDepth i = 2 ∧ s.sp.val = 1)) (hdiv : ¬ (i = .div ∧ 2 ≤ s.sp.val))
    (hpopreg : ∀ r, i = .popreg r → s.sp.val = 0) : t.S = s.S ∧ t.sp = s.sp := by
  cases h with
  | faults f => exact ⟨rfl, rfl⟩
  | faultsAfterOnePop f h0 hi =>
    obtain ⟨h1, -, hi⟩ | ⟨-, r, hi, -⟩ := hi
    · exact absurd ⟨(minDepth_eq_two_iff i).2 hi, h1⟩ hone
    · exact absurd (hpopreg r hi) h0
  | faultsAfterTwoPops h2 hi => exact absurd ⟨hi, h2⟩ hdiv
  | halts => cases ht
  | _ => cases hr.symm.trans ht

/-- Settles O60: the first clause by `exec_twoOperands_of_one`, the second case by case. -/
theorem faultsLeaveOnlyPopsBehind : Obligations.FaultsLeaveOnlyPopsBehind := by
  refine ⟨fun i s hi h1 => ?_, fun i s t hr h ht => ?_⟩
  · refine ⟨_, exec_twoOperands_of_one hi h1, .takeFault_poppedOne .., stack_of_poppedOne_of_one h1, ?_, fun k hk => ?_⟩
    · exact (poppedOne_read s 0).trans (if_pos (by omega))
    · exact (poppedOne_read s k).trans (if_neg (by omega))
  · have heffect := exec_effect h
    refine ⟨heffect.x_eq_of_faulted hr ht, fun hi h1 => ?_, fun hi => ?_, fun r hi => ?_,
      heffect.stack_eq_of_faulted hr ht⟩
    · cases (exec_twoOperands_of_one hi h1).symm.trans h
      exact stack_of_poppedOne_of_one h1
    · subst hi
      exact div_faulted hr h ht
    · subst hi
      exact popreg_faulted hr h ht

end Sys2Proof.Machine
end
